-- ==== Sys2Proof/Word.lean ====
section
/-! DEFINITION. The widths of the block's data (`00_scope.md` R8, `30_encoding.md` R60). -/

namespace Sys2Proof

/-- One byte an exchange delivers. -/
abbrev Byte := BitVec 8

/-- A conversion-result frame, four bytes, bit 31 the most significant bit of byte 0 (R10, R41). -/
abbrev Frame := BitVec 32

/-- The request word `{TE, LV, FRAME[31:0]}` (R65). -/
abbrev ReqWord := BitVec 34

end Sys2Proof
end

