-- ==== Sys2Proof/Config.lean ====
section
/-! DEFINITION. What the spec leaves to a realisation of the block, and the free values
(`00_scope.md` R9, `70_reset_and_hazards.md` R181, `93_implementation_defined.md` part 1). -/

namespace Sys2Proof

/-- How far `LEN_W` exceeds its least width. OPEN (R9, I13): no value is known of it. Log 11. -/
opaque Config.lenWExcess : Nat

/-- `LEN_W`, the width of the byte-count port: "OPEN, at least 3" (R9). Log 11. -/
def Config.lenW : Nat := 3 + Config.lenWExcess

/-- The inbound count the Frame Reader asks an exchange for, the frame's length in bytes (R8, R143). -/
def Config.frameBytes : Nat := 4

/-- The value of the `status` port before the first transaction, at a given step: unspecified
(R181, I8). FREE VALUE, log 3. -/
opaque Config.idleStatus : Nat → BitVec 3

/-- The value of the `tc` port before the first transaction: unspecified (R181, I8).
FREE VALUE, log 3. -/
opaque Config.idleTc : Nat → BitVec 14

/-- The value of the `cj` port before the first transaction: unspecified (R181, I8).
FREE VALUE, log 3. -/
opaque Config.idleCj : Nat → BitVec 12

/-- `SESSION_CLOCK_HZ`, "≈ 5 MHz" (R9): external, read by no rule and by nothing here. Log 13. -/
opaque Config.sessionClockHz : Nat

/-- The transport's bus mode (R9). -/
inductive BusMode where
  /-- "clock-idle-low/sample-on-rising-edge" -/
  | idleLowSampleRising
  deriving DecidableEq, Repr

/-- `SESSION_MODE` (R9): external, read by no rule and by nothing here. Log 13. -/
def Config.sessionMode : BusMode := .idleLowSampleRising

/-- `SESSION_WORD_BITS` (R9): external, read by no rule and by nothing here. Log 13. -/
def Config.sessionWordBits : Nat := 8

end Sys2Proof
end

