-- ==== Sys2Proof/Syntax.lean ====
section
/-! DEFINITION. The abstract syntax: requests and their port form (`30_encoding.md` R64), outcomes
(`00_scope.md` R13), and the six operations of the opcode map (R70) with every bit of their words. -/

namespace Sys2Proof

/-- The closed enumeration of fault kinds, in the source's order (R13, R160). -/
inductive FaultKind where
  | openCircuit
  | shortToGround
  | shortToSupply
  | transportError
  | malformedFrame
  deriving DecidableEq, Repr

/-- The outcome of one decode transaction (R13): either a reading of two integer counts (`tc` in
1/4 °C, `cj` in 1/16 °C) or one fault kind. A fault carries no temperature (R109). -/
inductive DecodeOutcome where
  | reading (tc cj : Int)
  | fault (k : FaultKind)
  deriving DecidableEq, Repr

/-- One decode request: the answer of one exchange (R64). -/
inductive Request where
  /-- The exchange failed: no bytes. -/
  | transportFailed
  /-- The exchange returned these bytes, any number of them, byte 0 first. -/
  | delivered (bytes : List Byte)
  deriving DecidableEq, Repr

/-- The request at port level (R64): `req_te`, `req_len` (the natural number on the `LEN_W` lines,
log 11) and `req_data`. -/
structure RequestPorts where
  te   : Bool
  len  : Nat
  data : Frame
  deriving DecidableEq, Repr

/-- The three result ports (R66). -/
structure ResultPorts where
  status : BitVec 3
  tc     : BitVec 14
  cj     : BitVec 12
  deriving DecidableEq, Repr

/-- The fields of a frame above its three fault bits (R61). -/
structure FrameBody where
  /-- `FRAME[31:18]`, the thermocouple field -/
  t     : BitVec 14
  /-- `FRAME[17]`, reserved, read by no operation (R62) -/
  rsv17 : Bool
  /-- `FRAME[16]`, the fault flag, read by no operation (R63) -/
  f     : Bool
  /-- `FRAME[15:4]`, the cold-junction field -/
  c     : BitVec 12
  /-- `FRAME[3]`, reserved, read by no operation (R62) -/
  rsv3  : Bool
  deriving DecidableEq, Repr

/-- The names of the six operations (R70). -/
inductive Operation where
  | transportError
  | malformedFrame
  | openCircuit
  | shortToGround
  | shortToSupply
  | reading
  deriving DecidableEq, Repr

/-- The six operations of the opcode map (R70), one constructor per row of
`spec/opcode_table.json`. A constructor keeps every bit of its REQ word that its row does not fix,
don't-care bits too, so that a word and its instruction determine each other (log 6). -/
inductive Instr where
  /-- TRANSPORT_ERROR: `TE = 1`; `LV` and the frame are don't-care (R101) -/
  | transportError (lv : Bool) (data : Frame)
  /-- MALFORMED_FRAME: `TE = 0`, `LV = 0`; the frame is don't-care (R102) -/
  | malformedFrame (data : Frame)
  /-- OPEN_CIRCUIT: `OC = 1` (R103) -/
  | openCircuit (body : FrameBody) (scv scg : Bool)
  /-- SHORT_TO_GROUND: `OC = 0`, `SCG = 1` (R104) -/
  | shortToGround (body : FrameBody) (scv : Bool)
  /-- SHORT_TO_SUPPLY: `OC = 0`, `SCG = 0`, `SCV = 1` (R105) -/
  | shortToSupply (body : FrameBody)
  /-- READING: the three fault bits clear (R120) -/
  | reading (body : FrameBody)
  deriving DecidableEq, Repr

/-- Which row of the opcode map an instruction stands for. -/
def Instr.operation : Instr → Operation
  | .transportError _ _ => .transportError
  | .malformedFrame _ => .malformedFrame
  | .openCircuit _ _ _ => .openCircuit
  | .shortToGround _ _ => .shortToGround
  | .shortToSupply _ => .shortToSupply
  | .reading _ => .reading

end Sys2Proof
end

