-- ==== Sys2Proof/WellFormed.lean ====
section
/-! DEFINITION. Which instructions are the canonical REQ word of a request (`30_encoding.md` R65).
No REQ word is illegal (R72): an instruction that is not well-formed still decodes and runs; it is
only the word of no request. Log 6. -/

namespace Sys2Proof

/-- "Bits that are don't-care ... are set to 0 in this canonical form", and no REQ word with
`TE = 1` and `LV = 1` arises from a request (R65). -/
def Instr.wellFormed : Instr → Bool
  | .transportError lv data => !lv && data == 0
  | .malformedFrame data => data == 0
  | .openCircuit _ _ _ => true
  | .shortToGround _ _ => true
  | .shortToSupply _ => true
  | .reading _ => true

/-- The byte-count port holds its value in `lenW` lines (R64). -/
def RequestPorts.wellFormed (lenW : Nat) (p : RequestPorts) : Bool :=
  decide (p.len < 2 ^ lenW)

end Sys2Proof
end

