-- ==== Sys2Proof/Decode.lean ====
section
/-! DEFINITION. The frame's layout, the REQ word of a request, the opcode map, the decoder and,
after it, the encoder (`20_memory.md` R41, `30_encoding.md` R61, R64, R65, R70). -/

namespace Sys2Proof

/-! ## The frame (R41, R61, R69) -/

/-- `FRAME[31:0] = {B[0], B[1], B[2], B[3]}` (R41). -/
def frameOfBytes (b0 b1 b2 b3 : Byte) : Frame :=
  (b0 ++ b1 ++ b2 ++ b3).cast rfl

/-- `T = FRAME[31:18]` (R61). -/
def frameT (frame : Frame) : BitVec 14 := frame.extractLsb' 18 14

/-- `RSV17 = FRAME[17]` (R61). -/
def frameRsv17 (frame : Frame) : Bool := frame.getLsbD 17

/-- `F = FRAME[16]` (R61). -/
def frameF (frame : Frame) : Bool := frame.getLsbD 16

/-- `C = FRAME[15:4]` (R61). -/
def frameC (frame : Frame) : BitVec 12 := frame.extractLsb' 4 12

/-- `RSV3 = FRAME[3]` (R61). -/
def frameRsv3 (frame : Frame) : Bool := frame.getLsbD 3

/-- `SCV = FRAME[2]` (R61, R69). -/
def frameScv (frame : Frame) : Bool := frame.getLsbD 2

/-- `SCG = FRAME[1]` (R61, R69). -/
def frameScg (frame : Frame) : Bool := frame.getLsbD 1

/-- `OC = FRAME[0]` (R61, R69). -/
def frameOc (frame : Frame) : Bool := frame.getLsbD 0

/-- The fields above the fault bits (R61). -/
def frameBody (frame : Frame) : FrameBody where
  t := frameT frame
  rsv17 := frameRsv17 frame
  f := frameF frame
  c := frameC frame
  rsv3 := frameRsv3 frame

/-! ## The request and its REQ word (R64, R65) -/

/-- `REQ[33:0] = {TE, LV, FRAME[31:0]}` (R65). -/
def packReq (te lv : Bool) (frame : Frame) : ReqWord :=
  (BitVec.ofBool te ++ BitVec.ofBool lv ++ frame).cast rfl

/-- `TE` (R65). -/
def Request.te : Request → Bool
  | .transportFailed => true
  | .delivered _ => false

/-- `LV`: the exchange delivered exactly four bytes, computed on the full count (R64, R65). -/
def Request.lv : Request → Bool
  | .transportFailed => false
  | .delivered bytes => bytes.length == Config.frameBytes

/-- `FRAME`, 0 where there is none (R65). -/
def Request.frame : Request → Frame
  | .delivered [b0, b1, b2, b3] => frameOfBytes b0 b1 b2 b3
  | _ => 0

/-- The REQ word of a request, in canonical form (R65). -/
def Request.reqWord (r : Request) : ReqWord := packReq r.te r.lv r.frame

/-- A delivered count on `lenW` lines: a count that does not fit is saturated, so that no count
other than 4 reads as 4 (R64, I13). Log 11. -/
def saturateCount (lenW n : Nat) : Nat := min n (2 ^ lenW - 1)

/-- The port form of a request on `lenW` count lines (R64). `anyLen` and `anyData` are what the
don't-care ports hold. -/
def Request.ports (lenW anyLen : Nat) (anyData : Frame) : Request → RequestPorts
  | .transportFailed => ⟨true, anyLen, anyData⟩
  | .delivered bytes =>
    ⟨false, saturateCount lenW bytes.length,
      if bytes.length == Config.frameBytes then (Request.delivered bytes).frame else anyData⟩

/-- `LV` of the request ports (R64, R65). -/
def RequestPorts.lv (p : RequestPorts) : Bool := !p.te && p.len == Config.frameBytes

/-- The REQ word of the request ports, don't-care bits 0 (R65). -/
def RequestPorts.reqWord (p : RequestPorts) : ReqWord :=
  packReq p.te p.lv (if p.lv then p.data else 0)

/-! ## The opcode map (R70) -/

/-- One row of the opcode map. -/
structure OpcodeRow where
  operation : Operation
  mask      : ReqWord
  pattern   : ReqWord
  deriving DecidableEq, Repr

/-- `(REQ & mask) == match` (R71). -/
def OpcodeRow.selects (row : OpcodeRow) (w : ReqWord) : Bool := w &&& row.mask == row.pattern

/-- The row of an operation, mask and match as R70 lists them. -/
def opcodeRow : Operation → OpcodeRow
  | .transportError => ⟨.transportError, 0x200000000, 0x200000000⟩
  | .malformedFrame => ⟨.malformedFrame, 0x300000000, 0x000000000⟩
  | .openCircuit => ⟨.openCircuit, 0x300000001, 0x100000001⟩
  | .shortToGround => ⟨.shortToGround, 0x300000003, 0x100000002⟩
  | .shortToSupply => ⟨.shortToSupply, 0x300000007, 0x100000004⟩
  | .reading => ⟨.reading, 0x300000007, 0x100000000⟩

/-- The opcode map, in the order of R70. -/
def opcodeMap : List OpcodeRow :=
  [opcodeRow .transportError, opcodeRow .malformedFrame, opcodeRow .openCircuit,
    opcodeRow .shortToGround, opcodeRow .shortToSupply, opcodeRow .reading]

/-! ## The decoder -/

/-- `FRAME` of a REQ word (R65). -/
def reqFrame (w : ReqWord) : Frame := w.extractLsb' 0 32

/-- The operation of a frame by its fault bits, "first match short-circuits" (R70, R107). -/
def decodeFrame (frame : Frame) : Instr :=
  if frameOc frame then .openCircuit (frameBody frame) (frameScv frame) (frameScg frame)
  else if frameScg frame then .shortToGround (frameBody frame) (frameScv frame)
  else if frameScv frame then .shortToSupply (frameBody frame)
  else .reading (frameBody frame)

/-- The instruction of a REQ word. Total: "Every REQ value has an operation" (R72). -/
def decodeReq (w : ReqWord) : Instr :=
  if w.getLsbD 33 then .transportError (w.getLsbD 32) (reqFrame w)
  else if w.getLsbD 32 then decodeFrame (reqFrame w)
  else .malformedFrame (reqFrame w)

/-- Why bits presented as a REQ word are no instruction. -/
inductive DecodeReject where
  /-- A bit above bit 33 is set: the REQ word has 34 bits (R65). Log 5. -/
  | widerThanReq
  deriving DecidableEq, Repr

/-- The instruction of any bits presented as a REQ word, bit 0 the least significant. -/
def decodeWord (n : Nat) : Except DecodeReject Instr :=
  if n < 2 ^ 34 then .ok (decodeReq (BitVec.ofNat 34 n)) else .error .widerThanReq

/-- The bits of an opcode-table row of `nbits` bits, those above `nbits` zero. -/
def tableBits (nbits w : Nat) : Nat := w % 2 ^ nbits

/-- The instruction the decoder reads from the table's numbering of a word's bits (log 5). -/
def decodeTableWord (nbits w : Nat) : Option Instr :=
  match decodeWord (tableBits nbits w) with
  | .ok i => some i
  | .error _ => none

/-! ## The encoder -/

/-- The 32 bits of a frame, field by field from bit 31 down (R61). -/
def encodeFrame (body : FrameBody) (scv scg oc : Bool) : Frame :=
  (body.t ++ BitVec.ofBool body.rsv17 ++ BitVec.ofBool body.f ++ body.c ++ BitVec.ofBool body.rsv3
    ++ BitVec.ofBool scv ++ BitVec.ofBool scg ++ BitVec.ofBool oc).cast rfl

/-- The REQ word of an instruction, from the patterns of R70: `TE`, `LV`, then the frame. -/
def encode : Instr → ReqWord
  | .transportError lv data => packReq true lv data
  | .malformedFrame data => packReq false false data
  | .openCircuit body scv scg => packReq false true (encodeFrame body scv scg true)
  | .shortToGround body scv => packReq false true (encodeFrame body scv true false)
  | .shortToSupply body => packReq false true (encodeFrame body true false false)
  | .reading body => packReq false true (encodeFrame body false false false)

end Sys2Proof
end

