-- ==== Sys2Proof/Machine/State.lean ====
section
/-! DEFINITION. The machine's state, plain data. The block itself has no state (`10_state.md` R20 to
R26, R30): State holds the block's output and what stands at its boundary, the interactions its
surroundings present, the sessions, the exchanges in flight and what callers have been handed
(`42_host_interface.md`). Log 1. -/

namespace Sys2Proof.Machine

/-- Why the machine stops with a fault: never. "No request makes the block trap, hang or refuse"
(R72), and the five fault kinds are outcomes of a transaction after which the machine goes on
(R163, R164). Log 12. -/
inductive Fault where
  deriving DecidableEq, Repr

/-- Why a step has no meaning. -/
inductive Refusal where
  /-- An instruction without a meaning, rejected by name in exec's arm. Raised by no arm. Safe. -/
  | notModelled (mnemonic : String)
  /-- Bits wider than 34 were presented as a REQ word (R65). Raised when such a word is taken from
  the inbox. Safe. Log 5. -/
  | wordWiderThanReq
  /-- `getTemperature()` on a session no `open()` has returned (R148, I12). Raised by a call.
  Safe. -/
  | noSession
  /-- `getTemperature()` on a session whose exchange is in flight (R183, I4). Raised by a call.
  Safe. -/
  | overlappingCall
  /-- The transport answered a session that has no exchange in flight. Raised by an answer.
  Safe. Log 9. -/
  | noExchangePending
  deriving DecidableEq, Repr

/-- One interaction of the surroundings with the machine (R64, R65, R75, R141 to R146). A session is
named by its place in the order of successful `open()`s, from 0 (log 7). -/
inductive HostEvent where
  /-- A REQ word at the block's input, as a number whose bit 0 is `FRAME[0]` (R65; log 5). -/
  | word (bits : Nat)
  /-- The request ports hold these values (R64). -/
  | ports (p : RequestPorts)
  /-- `DECODE ...`: the block is given this request (R75). -/
  | request (r : Request)
  /-- `OPEN ok`: `open()` succeeds (R141, R146). -/
  | openOk
  /-- `OPEN TE`: `open()` fails (R141, R146). -/
  | openFailed
  /-- A caller calls `getTemperature()` on a session: the Frame Reader issues its exchange (R143,
  R145; log 8). -/
  | call (session : Nat)
  /-- The transport answers the exchange of a session: the draw of R142 (log 10). -/
  | answer (session : Nat) (r : Request)
  deriving DecidableEq, Repr

/-- An exchange in flight (R142). -/
structure Exchange where
  session  : Nat
  /-- the optional outbound byte sequence -/
  outbound : Option (List Byte)
  /-- the required inbound byte count -/
  inbound  : Nat
  deriving DecidableEq, Repr

/-- Whom an outcome is for. -/
inductive Caller where
  /-- whoever drives the block's input directly -/
  | ports
  /-- the caller blocked on this session -/
  | session (session : Nat)
  deriving DecidableEq, Repr

/-- What a caller is handed. -/
inductive Return where
  /-- `open()` returned this session (R141) -/
  | opened (session : Nat)
  /-- `open()` failed with this kind, and there is no session (R141) -/
  | openFails (k : FaultKind)
  /-- a transaction's outcome (R145) -/
  | decoded (caller : Caller) (o : DecodeOutcome)
  deriving DecidableEq, Repr

/-- The host-level pseudo-operations of a program (R146). -/
inductive HostOp where
  /-- `OPEN ok` -/
  | openOk
  /-- `OPEN TE` -/
  | openTE
  /-- `GETTEMP ...` on a session, with the transport's answer written out -/
  | gettemp (session : Nat) (answer : Request)
  deriving DecidableEq, Repr

/-- The state of the machine. -/
structure State where
  /-- interactions presented and not yet taken, oldest first -/
  inbox    : List HostEvent
  /-- how many sessions `open()` has returned; session `n` exists when `n` is below this (log 7) -/
  sessions : Nat
  /-- exchanges in flight, oldest first: each is a call that blocks (R147) -/
  pending  : List Exchange
  /-- the last transaction's outcome, none before the first (R13, R181); the result ports show it -/
  outcome  : Option DecodeOutcome
  /-- what callers have been handed, oldest first; no step reads it (log 15) -/
  returns  : List Return
  /-- the model's own count of steps; it picks the free values of R181 (log 3) -/
  ticks    : Nat
  deriving DecidableEq, Repr

/-- The machine right after reset: "the block has no state, so reset changes nothing" (R180), and
no outcome before a transaction ends (R181). The boundary's fields are empty (log 16). -/
def State.reset : State where
  inbox := []
  sessions := 0
  pending := []
  outcome := none
  returns := []
  ticks := 0

end Sys2Proof.Machine
end

