-- ==== Sys2Proof/Machine/Ops.lean ====
section
/-! DEFINITION. The named operations over the state: ending a transaction with a reading or with a
fault, and what the boundary does with sessions, exchanges and returns. -/

namespace Sys2Proof.Machine

/-! ## Ending a transaction (R13, R66, R163) -/

/-- The transaction ends with this outcome, which the result ports then show (R13, R66). -/
def State.drive (o : DecodeOutcome) (s : State) : State := { s with outcome := some o }

/-- `raise Fault(k)` (R11, R163): the one way a fault is taken. It "saves no state, changes no mode,
mask or stack, and transfers control nowhere"; the outcome is `Fault(k)` and the machine goes on.
There is no return from it: "No trap return and no nesting" (R164). -/
def raiseFault (k : FaultKind) (s : State) : Host.Outcome State Fault Refusal :=
  .next (s.drive (.fault k))

/-- `return Reading(t, c)` (R11). -/
def returnReading (tc cj : Int) (s : State) : Host.Outcome State Fault Refusal :=
  .next (s.drive (.reading tc cj))

/-! ## The boundary (R141 to R149) -/

/-- One step is counted (log 3). -/
def State.tick (s : State) : State := { s with ticks := s.ticks + 1 }

/-- The first interaction is taken out of the inbox, and the step is counted. -/
def State.take (rest : List HostEvent) (s : State) : State :=
  { s with inbox := rest, ticks := s.ticks + 1 }

/-- A caller is handed something: "every error is surfaced to the immediate caller" (R145). -/
def State.handBack (r : Return) (s : State) : State := { s with returns := s.returns ++ [r] }

/-- The outcome that stands at the result ports is surfaced to a caller, unchanged (R145). -/
def State.surface (caller : Caller) (s : State) : State :=
  match s.outcome with
  | some o => s.handBack (.decoded caller o)
  | none => s

/-- `open()` has returned this session (R141; log 7). -/
def State.hasSession (session : Nat) (s : State) : Bool := decide (session < s.sessions)

/-- The session's exchange is in flight, its caller blocked (R147, R183). -/
def State.busy (session : Nat) (s : State) : Bool := s.pending.any (·.session == session)

/-- `open()` succeeds: a new session, handed to the caller (R141). -/
def State.openSession (s : State) : State :=
  { s with sessions := s.sessions + 1 }.handBack (.opened s.sessions)

/-- `open()` fails: "A failed open() yields TransportError and no session" (R141). -/
def State.failOpen (s : State) : State := s.handBack (.openFails .transportError)

/-- The exchange `read()` issues: no outbound sequence, an inbound count of 4 (R143, R144, R145). -/
def readerExchange (session : Nat) : Exchange where
  session := session
  outbound := none
  inbound := Config.frameBytes

/-- The Frame Reader issues its exchange and the caller blocks (R143, R147). -/
def State.issue (session : Nat) (s : State) : State :=
  { s with pending := s.pending ++ [readerExchange session] }

/-- The exchange of this session has been answered and is no longer in flight. -/
def State.complete (session : Nat) (s : State) : State :=
  { s with pending := s.pending.filter (·.session != session) }

/-- What one caller has been handed by transactions, oldest first. -/
def State.outcomesOf (caller : Caller) (s : State) : List DecodeOutcome :=
  s.returns.filterMap fun
    | .decoded c o => if c = caller then some o else none
    | _ => none

end Sys2Proof.Machine
end

