-- ==== Sys2Proof/Machine/Operands.lean ====
section
/-! DEFINITION. Operand assembly and the fixed-point numbers: the 16-bit views of a frame
(`20_memory.md` R42), field extraction by right shift (R68, R121, R123), sign extension (R12, R122,
R124), scaling to degrees Celsius (R126). -/

namespace Sys2Proof.Machine

/-- `sext_N(v)`: "test the field's sign bit, and subtract 2^(field width) if set", on unbounded
integers (R12, R129). -/
def sext {N : Nat} (v : BitVec N) : Int :=
  if v.getLsbD (N - 1) then (v.toNat : Int) - 2 ^ N else v.toNat

/-- `tc = sext_14(T)`, in counts of 1/4 °C (R122). -/
def tcCount (t : BitVec 14) : Int := sext t

/-- `cj = sext_12(C)`, in counts of 1/16 °C (R124). -/
def cjCount (c : BitVec 12) : Int := sext c

/-- Two bytes "as a 16-bit big-endian unsigned value" (R42). -/
def be16 (high low : Byte) : BitVec 16 := high ++ low

/-- `T = (HI16 >> 2)[13:0]` (R68, R121). -/
def fieldT (hi16 : BitVec 16) : BitVec 14 := (hi16 >>> 2).setWidth 14

/-- `C = (LO16 >> 4)[11:0]` (R68, R123). -/
def fieldC (lo16 : BitVec 16) : BitVec 12 := (lo16 >>> 4).setWidth 12

/-- `thermocoupleTemp = tc * 1/4 °C`, exact (R126). -/
def thermocoupleTemp (tc : Int) : Rat := tc * (1 / 4)

/-- `internalTemp = cj * 1/16 °C`, exact (R126). -/
def internalTemp (cj : Int) : Rat := cj * (1 / 16)

/-- The physical temperatures of an outcome, in °C: both of a reading, none of a fault (R109,
R126). Celsius is the only scale (R132). -/
def celsius : DecodeOutcome → Option (Rat × Rat)
  | .reading tc cj => some (thermocoupleTemp tc, internalTemp cj)
  | .fault _ => none

end Sys2Proof.Machine
end

