-- ==== Sys2Proof/Machine/Flags.lean ====
section
/-! DEFINITION. The flag bits. The block has no flag state (`10_state.md` R23): the flags are input
values, the three fault bits of byte 3 (`30_encoding.md` R69) and their priority
(`40_fault_priority.md` R107). The fault flag `F` is read by nothing (R63). No operation writes a
flag, so no flag computation exists. -/

namespace Sys2Proof.Machine

/-- `OC = B[3][0]` (R69). -/
def byteOc (b3 : Byte) : Bool := b3.getLsbD 0

/-- `SCG = B[3][1]` (R69). -/
def byteScg (b3 : Byte) : Bool := b3.getLsbD 1

/-- `SCV = B[3][2]` (R69). -/
def byteScv (b3 : Byte) : Bool := b3.getLsbD 2

/-- The wiring fault of the three fault bits, in the order of R107. -/
def wiringFault (scv scg oc : Bool) : Option FaultKind :=
  match scv, scg, oc with
  | _, _, true => some .openCircuit
  | _, true, false => some .shortToGround
  | true, false, false => some .shortToSupply
  | false, false, false => none

end Sys2Proof.Machine
end

