-- ==== Sys2Proof/Machine/FaultPriority.lean ====
section
/-! DEFINITION. The five operations that end in a fault (`40_fault_priority.md` R101 to R105). Each
reads none of its operands: which operation runs is all that decides the outcome (R110). -/

namespace Sys2Proof.Machine

/-- TRANSPORT_ERROR: "`req_len` and `req_data` are ignored, whatever they hold" (R101). -/
def execTransportError (_lv : Bool) (_data : Frame) (s : State) :
    Host.Outcome State Fault Refusal :=
  raiseFault .transportError s

/-- MALFORMED_FRAME: "the bytes are not inspected" (R102). -/
def execMalformedFrame (_data : Frame) (s : State) : Host.Outcome State Fault Refusal :=
  raiseFault .malformedFrame s

/-- OPEN_CIRCUIT: "regardless of other bits" (R103). -/
def execOpenCircuit (_body : FrameBody) (_scv _scg : Bool) (s : State) :
    Host.Outcome State Fault Refusal :=
  raiseFault .openCircuit s

/-- SHORT_TO_GROUND: "applies with `SCV` also set" (R104). -/
def execShortToGround (_body : FrameBody) (_scv : Bool) (s : State) :
    Host.Outcome State Fault Refusal :=
  raiseFault .shortToGround s

/-- SHORT_TO_SUPPLY (R105). -/
def execShortToSupply (_body : FrameBody) (s : State) : Host.Outcome State Fault Refusal :=
  raiseFault .shortToSupply s

end Sys2Proof.Machine
end

