-- ==== Sys2Proof/Machine/Temperature.lean ====
section
/-! DEFINITION. The READING operation (`41_temperature_extract.md` R120). -/

namespace Sys2Proof.Machine

/-- READING: both temperatures, each sign-extended from its own field (R120, R122, R124, R125);
`F`, `RSV17` and `RSV3` are not read. -/
def execReading (body : FrameBody) (s : State) : Host.Outcome State Fault Refusal :=
  returnReading (tcCount body.t) (cjCount body.c) s

end Sys2Proof.Machine
end

