-- ==== Sys2Proof/Machine/Dispatch.lean ====
section
/-! DEFINITION. One arm per operation of the opcode map (`30_encoding.md` R70). -/

namespace Sys2Proof.Machine

def exec (i : Instr) (s : State) : Host.Outcome State Fault Refusal :=
  match i with
  | .transportError lv data => Sys2Proof.Machine.execTransportError lv data s
  | .malformedFrame data => Sys2Proof.Machine.execMalformedFrame data s
  | .openCircuit body scv scg => Sys2Proof.Machine.execOpenCircuit body scv scg s
  | .shortToGround body scv => Sys2Proof.Machine.execShortToGround body scv s
  | .shortToSupply body => Sys2Proof.Machine.execShortToSupply body s
  | .reading body => Sys2Proof.Machine.execReading body s

end Sys2Proof.Machine
end

