-- ==== Sys2Proof/Machine/Boundary.lean ====
section
/-! DEFINITION. What the boundary does with one interaction of its surroundings
(`42_host_interface.md` R140 to R149, `70_reset_and_hazards.md` R183), and the expansion of the
host-level pseudo-operations (R76, R146). -/

namespace Sys2Proof.Machine

/-- One decode transaction: the operation runs and its outcome is surfaced to the caller (R145). -/
def transact (caller : Caller) (i : Instr) (s : State) : Host.Outcome State Fault Refusal :=
  match exec i s with
  | .next t => .next (t.surface caller)
  | .fault r => .fault r
  | .refused r => .refused r

/-- A caller calls `getTemperature()`: refused without a session (R148) and while the session's
exchange is in flight (R183); otherwise the Frame Reader issues its exchange (R143) and the caller
blocks (R147). -/
def startCall (session : Nat) (s : State) : Host.Outcome State Fault Refusal :=
  if s.hasSession session then
    if s.busy session then .refused .overlappingCall else .next (s.issue session)
  else .refused .noSession

/-- The transport answers: the answer is the block's request, and the outcome of its one decode
reaches the blocked caller unchanged (R143, R145). -/
def finishCall (session : Nat) (r : Request) (s : State) : Host.Outcome State Fault Refusal :=
  if s.busy session then transact (.session session) (decodeReq r.reqWord) (s.complete session)
  else .refused .noExchangePending

/-- One interaction of the surroundings. -/
def interact (e : HostEvent) (s : State) : Host.Outcome State Fault Refusal :=
  match e with
  | .word bits =>
    match decodeWord bits with
    | .ok i => transact .ports i s
    | .error .widerThanReq => .refused .wordWiderThanReq
  | .ports p => transact .ports (decodeReq p.reqWord) s
  | .request r => transact .ports (decodeReq r.reqWord) s
  | .openOk => .next s.openSession
  | .openFailed => .next s.failOpen
  | .call session => startCall session s
  | .answer session r => finishCall session r s

/-- A pseudo-operation as interactions: `GETTEMP` "expands to one exchange followed by one `DECODE`
of the exchange's answer" (R76). -/
def HostOp.expand : HostOp → List HostEvent
  | .openOk => [.openOk]
  | .openTE => [.openFailed]
  | .gettemp session r => [.call session, .answer session r]

/-- The machine after reset with a host program presented to it (log 14). -/
def State.withProgram (ops : List HostOp) : State :=
  { State.reset with inbox := ops.flatMap HostOp.expand }

/-- The surroundings present bits as the next REQ word (log 5, log 14). -/
def State.presentWord (bits : Nat) (s : State) : State := { s with inbox := .word bits :: s.inbox }

/-- The machine takes the next interaction out of the inbox; with none presented nothing happens
(log 2). Either way the step is counted. -/
def takeStep (s : State) : Host.Outcome State Fault Refusal :=
  match s.inbox with
  | [] => .next s.tick
  | e :: rest => interact e (s.take rest)

end Sys2Proof.Machine
end

