-- ==== Sys2Proof/Machine/Step.lean ====
section
/-! DEFINITION. One step of the machine: one interaction, a transaction being one atomic step
(`00_scope.md` R6). -/

namespace Sys2Proof.Machine

/-- One atomic, untimed step (R6). -/
def step (s : State) : Host.Outcome State Fault Refusal := takeStep s

/-- The state in which the very next step runs the word `w` of an opcode-table row of `nbits` bits:
the word is presented before everything else (log 5, log 14). -/
def State.withFetchWord (s : State) (nbits w : Nat) : State := s.presentWord (tableBits nbits w)

end Sys2Proof.Machine
end

