-- ==== Sys2Proof/Machine/Result.lean ====
section
/-! DEFINITION. The RESULT format: status codes and result ports (`30_encoding.md` R66, R67). The
result ports are a view of the outcome in State, not storage of their own (log 4). -/

namespace Sys2Proof.Machine

/-- The status code of a fault kind (R67, R160). -/
def statusCode : FaultKind → BitVec 3
  | .openCircuit => 1
  | .shortToGround => 2
  | .shortToSupply => 3
  | .transportError => 4
  | .malformedFrame => 5

/-- The result ports of an outcome: the counts' two's-complement bits, or the fault's code with
both temperatures 0 (R66). -/
def outcomePorts : DecodeOutcome → ResultPorts
  | .reading tc cj => ⟨0, BitVec.ofInt 14 tc, BitVec.ofInt 12 cj⟩
  | .fault k => ⟨statusCode k, 0, 0⟩

/-- What the result ports hold: the last transaction's outcome (log 4), and before the first
transaction free values (R181; log 3). -/
def State.resultPorts (s : State) : ResultPorts :=
  match s.outcome with
  | some o => outcomePorts o
  | none => ⟨Config.idleStatus s.ticks, Config.idleTc s.ticks, Config.idleCj s.ticks⟩

end Sys2Proof.Machine
end

