-- ==== Sys2Proof/Machine/Transaction.lean ====
section
/-! DEFINITION. The decode transaction as the source's algorithm over bytes (`40_fault_priority.md`
R100): the clear reference that the opcode map's operations are held against. The machine itself
runs the operation the REQ word selects. -/

namespace Sys2Proof.Machine

/-- Steps 1 to 4 of the algorithm on the four bytes of a frame, through the 16-bit views (R100,
R103 to R105, R107, R120, R121, R123). -/
def decodeBytes (b0 b1 b2 b3 : Byte) : DecodeOutcome :=
  match wiringFault (byteScv b3) (byteScg b3) (byteOc b3) with
  | some k => .fault k
  | none => .reading (tcCount (fieldT (be16 b0 b1))) (cjCount (fieldC (be16 b2 b3)))

/-- `decode : Request -> Outcome`, in strict order, the first condition that holds ending the
transaction (R100, R106). -/
def decodeTransaction : Request → DecodeOutcome
  | .transportFailed => .fault .transportError
  | .delivered [b0, b1, b2, b3] => decodeBytes b0 b1 b2 b3
  | .delivered _ => .fault .malformedFrame

end Sys2Proof.Machine
end

