-- ==== Sys2Proof/Safety.lean ====
section
/-! DEFINITION. What counts as a good state and a dutiful interaction, in the terms the statements
use: count ranges (`00_scope.md` R13, `41_temperature_extract.md` R127), the discipline of exchanges
(`42_host_interface.md` R143, R147, `70_reset_and_hazards.md` R183), the caller's duties (R149). -/

namespace Sys2Proof.Machine

/-- A reading's counts lie in the fields' ranges: `-8192 <= tc <= 8191`, `-2048 <= cj <= 2047`
(R13). -/
def outcomeInRange : DecodeOutcome → Bool
  | .reading tc cj =>
    decide (-8192 ≤ tc) && decide (tc ≤ 8191) && decide (-2048 ≤ cj) && decide (cj ≤ 2047)
  | .fault _ => true

/-- A return that carries an outcome carries one in range; a failed `open()` carries TransportError
and an opened session is one of those opened (R141). -/
def returnOk (sessions : Nat) : Return → Bool
  | .opened session => decide (session < sessions)
  | .openFails k => k == .transportError
  | .decoded _ o => outcomeInRange o

/-- The fault kind of an outcome, none for a reading. -/
def faultOf : DecodeOutcome → Option FaultKind
  | .reading _ _ => none
  | .fault k => some k

/-- The delivery of a frame's four bytes, byte 0 first (R41). -/
def requestOfFrame (frame : Frame) : Request :=
  .delivered [frame.extractLsb' 24 8, frame.extractLsb' 16 8, frame.extractLsb' 8 8,
    frame.extractLsb' 0 8]

/-- Two frames that agree in every bit but those listed. -/
def agreeExcept (bits : List Nat) (frame frame' : Frame) : Prop :=
  ∀ k, k ∉ bits → frame.getLsbD k = frame'.getLsbD k

/-- The invariant of the machine: the outcome and everything handed back is in range, every exchange
in flight is the Frame Reader's on an open session, and no session has two. -/
structure State.Inv (s : State) : Prop where
  outcome_range : ∀ o, s.outcome = some o → outcomeInRange o = true
  returns_ok : ∀ r ∈ s.returns, returnOk s.sessions r = true
  pending_reader : ∀ x ∈ s.pending, x = readerExchange x.session ∧ x.session < s.sessions
  pending_once : (s.pending.map (·.session)).Nodup

/-- The duties a caller and a transport keep (R148, R149, R183; log 5, log 9). -/
def HostEvent.dutiful (s : State) : HostEvent → Bool
  | .word bits => decide (bits < 2 ^ 34)
  | .ports _ => true
  | .request _ => true
  | .openOk => true
  | .openFailed => true
  | .call session => s.hasSession session && !s.busy session
  | .answer session _ => s.busy session

/-- Whom a transaction an interaction starts is for, none where it starts none (R145, R151). -/
def HostEvent.transactionFor : HostEvent → Option Caller
  | .word _ => some .ports
  | .ports _ => some .ports
  | .request _ => some .ports
  | .openOk => none
  | .openFailed => none
  | .call _ => none
  | .answer session _ => some (.session session)

/-- The instruction an interaction presents to the block, none where it presents none. -/
def HostEvent.instr : HostEvent → Option Instr
  | .word bits => (decodeWord bits).toOption
  | .ports p => some (decodeReq p.reqWord)
  | .request r => some (decodeReq r.reqWord)
  | .openOk => none
  | .openFailed => none
  | .call _ => none
  | .answer _ r => some (decodeReq r.reqWord)

end Sys2Proof.Machine
end

