-- ==== Sys2Proof/Certificates/Slice0/Obligations.lean ====
section
/-! DEFINITION. The statements for the provers. A clause that rests on a choice of the spec's own
(`92_eei_decisions.md` D1 to D22: the REQ word and the opcode map over it, the status codes and
result ports, the boundary's treatment of sessions) or of this model (a log entry) is named in the
statement's docstring. -/

open Sys2Proof Sys2Proof.Machine

/-! ## Encoding -/

/-- Words of `95_test_vectors.md`, one for each operation and the non-canonical `0x300000000`, decode
to the instruction they stand for. The REQ word is the spec's own (D2). -/
def Obligations.SpecWordsDecode : Prop :=
  decodeReq 0x200000000#34 = .transportError false 0 ∧
  decodeReq 0x300000000#34 = .transportError true 0 ∧
  decodeReq 0x000000000#34 = .malformedFrame 0 ∧
  decodeReq 0x10003000F#34 = .openCircuit ⟨0, true, true, 0, true⟩ true true ∧
  decodeReq 0x100000006#34 = .shortToGround ⟨0, false, false, 0, false⟩ true ∧
  decodeReq 0x10000000C#34 = .shortToSupply ⟨0, false, false, 0, true⟩ ∧
  decodeReq 0x1F060F600#34 = .reading ⟨0x3C18, false, false, 0xF60, false⟩ ∧
  decodeReq 0x1FFFEFFF0#34 = .reading ⟨0x3FFF, true, false, 0xFFF, false⟩

/-- Decoding an instruction's word gives the instruction back, with every operand and every
don't-care bit at every value. The REQ word is the spec's own (D2). -/
def Obligations.DecodeInvertsEncode : Prop :=
  ∀ i : Instr, decodeReq (encode i) = i

/-- Every REQ word is the word of the instruction it decodes to: no bit is dropped and no two words
share an instruction. The REQ word is the spec's own (D2). -/
def Obligations.EncodeInvertsDecode : Prop :=
  ∀ w : ReqWord, encode (decodeReq w) = w

/-- "for every 34-bit REQ value, `(REQ & mask) == match` holds for exactly one row" (R71, an
inference of the spec's), and it is the row of the operation the decoder reads. -/
def Obligations.ExactlyOneOpcodeRowSelects : Prop :=
  ∀ w : ReqWord,
    opcodeMap.filter (fun row => row.selects w) = [opcodeRow (decodeReq w).operation]

/-- Byte by byte, where the fields of a frame stand (R61, whose byte placement is the spec's
inference): byte 0 is `T[13:6]`, byte 1 `{T[5:0], RSV17, F}`, byte 2 `C[11:4]`, byte 3
`{C[3:0], RSV3, SCV, SCG, OC}`. -/
def Obligations.FrameBytesHoldTheFields : Prop :=
  ∀ (body : FrameBody) (scv scg oc : Bool),
    encodeFrame body scv scg oc =
      frameOfBytes
        (body.t.extractLsb' 6 8)
        ((body.t.extractLsb' 0 6 ++ BitVec.ofBool body.rsv17 ++ BitVec.ofBool body.f).cast rfl)
        (body.c.extractLsb' 4 8)
        ((body.c.extractLsb' 0 4 ++ BitVec.ofBool body.rsv3 ++ BitVec.ofBool scv ++
          BitVec.ofBool scg ++ BitVec.ofBool oc).cast rfl)

/-- The frame is big-endian (R41): byte `k` is `FRAME[31-8k : 24-8k]`, and the block's frame of a
four-byte delivery is those bytes in that order. -/
def Obligations.FrameIsBigEndian : Prop :=
  ∀ b0 b1 b2 b3 : Byte,
    reqFrame (Request.delivered [b0, b1, b2, b3]).reqWord = frameOfBytes b0 b1 b2 b3 ∧
    (frameOfBytes b0 b1 b2 b3).extractLsb' 24 8 = b0 ∧
    (frameOfBytes b0 b1 b2 b3).extractLsb' 16 8 = b1 ∧
    (frameOfBytes b0 b1 b2 b3).extractLsb' 8 8 = b2 ∧
    (frameOfBytes b0 b1 b2 b3).extractLsb' 0 8 = b3

/-- The REQ words of requests are the words of the well-formed instructions, no more and no fewer:
the canonical form of R65 (the spec's own, D2; log 6). -/
def Obligations.CanonicalWordsAreTheRequests : Prop :=
  (∀ r : Request, (decodeReq r.reqWord).wellFormed = true) ∧
  (∀ i : Instr, i.wellFormed = true → ∃ r : Request, r.reqWord = encode i)

/-- On any count port of at least three lines, a saturated count that fits its lines and any values
on the don't-care ports give the request's REQ word (R64, R65, the spec's own, D2; log 11). -/
def Obligations.RequestPortsGiveTheReqWord : Prop :=
  ∀ (lenW anyLen : Nat) (anyData : Frame) (r : Request),
    3 ≤ lenW → anyLen < 2 ^ lenW →
      (r.ports lenW anyLen anyData).wellFormed lenW = true ∧
      (r.ports lenW anyLen anyData).reqWord = r.reqWord

/-- The don't-care ports are ignored, whatever they hold: with `req_te` set the outcome is
Fault(TransportError) whatever the count and the data, and with `req_te` clear and a count other
than 4 it is Fault(MalformedFrame) whatever the data (R64, the spec's own, D2). -/
def Obligations.DontCarePortsAreIgnored : Prop :=
  (∀ (len : Nat) (data : Frame) (s : State),
    exec (decodeReq (RequestPorts.mk true len data).reqWord) s =
      .next { s with outcome := some (.fault .transportError) }) ∧
  (∀ (len : Nat) (data : Frame) (s : State), len ≠ 4 →
    exec (decodeReq (RequestPorts.mk false len data).reqWord) s =
      .next { s with outcome := some (.fault .malformedFrame) })

/-- Bits presented as a REQ word decode exactly when they fit in 34 bits (log 5, this model's). -/
def Obligations.OnlyWiderWordsAreNoInstruction : Prop :=
  ∀ nbits w : Nat,
    (w % 2 ^ nbits < 2 ^ 34 →
      decodeTableWord nbits w = some (decodeReq (BitVec.ofNat 34 (w % 2 ^ nbits)))) ∧
    (2 ^ 34 ≤ w % 2 ^ nbits → decodeTableWord nbits w = none) ∧
    (nbits ≤ 34 → (decodeTableWord nbits w).isSome = true)

/-! ## The six operations -/

/-- TRANSPORT_ERROR: the row's words are exactly the instruction's, whatever their other 33 bits;
a failed exchange is one; the outcome is Fault(TransportError), nothing else of the state changes,
and the result ports show code 4 and no temperature. The REQ word (D2), the code (D4) and the ports
(D3) are the spec's own. -/
def Obligations.TransportErrorOperation : Prop :=
  (∀ w : ReqWord, w &&& 0x200000000 = 0x200000000 ↔
    ∃ lv data, decodeReq w = .transportError lv data) ∧
  decodeReq Request.transportFailed.reqWord = .transportError false 0 ∧
  ∀ (lv : Bool) (data : Frame) (s : State),
    ∃ t, exec (.transportError lv data) s = .next t ∧
      t = { s with outcome := some (.fault .transportError) } ∧ t.resultPorts = ⟨4, 0, 0⟩

/-- MALFORMED_FRAME: the row's words are exactly the instruction's; every delivery whose count is
not four is one, its bytes not inspected; the outcome is Fault(MalformedFrame), nothing else of the
state changes, and the result ports show code 5 and no temperature. The REQ word (D2), the code
(D4) and the ports (D3) are the spec's own. -/
def Obligations.MalformedFrameOperation : Prop :=
  (∀ w : ReqWord, w &&& 0x300000000 = 0x000000000 ↔ ∃ data, decodeReq w = .malformedFrame data) ∧
  (∀ bytes : List Byte, bytes.length ≠ 4 →
    decodeReq (Request.delivered bytes).reqWord = .malformedFrame 0) ∧
  ∀ (data : Frame) (s : State),
    ∃ t, exec (.malformedFrame data) s = .next t ∧
      t = { s with outcome := some (.fault .malformedFrame) } ∧ t.resultPorts = ⟨5, 0, 0⟩

/-- OPEN_CIRCUIT: the row's words are exactly the instruction's; a delivered frame is one exactly
when bit 0 of byte 3 is set, regardless of other bits; the outcome is Fault(OpenCircuit), nothing
else of the state changes, and the result ports show code 1 and no temperature. The REQ word (D2),
the code (D4) and the ports (D3) are the spec's own. -/
def Obligations.OpenCircuitOperation : Prop :=
  (∀ w : ReqWord, w &&& 0x300000001 = 0x100000001 ↔
    ∃ body scv scg, decodeReq w = .openCircuit body scv scg) ∧
  (∀ b0 b1 b2 b3 : Byte, b3.getLsbD 0 = true ↔
    ∃ body scv scg,
      decodeReq (Request.delivered [b0, b1, b2, b3]).reqWord = .openCircuit body scv scg) ∧
  ∀ (body : FrameBody) (scv scg : Bool) (s : State),
    ∃ t, exec (.openCircuit body scv scg) s = .next t ∧
      t = { s with outcome := some (.fault .openCircuit) } ∧ t.resultPorts = ⟨1, 0, 0⟩

/-- SHORT_TO_GROUND: the row's words are exactly the instruction's; a delivered frame is one exactly
when bit 0 of byte 3 is clear and bit 1 set; the outcome is Fault(ShortToGround), nothing else of
the state changes, and the result ports show code 2 and no temperature. The REQ word (D2), the code
(D4) and the ports (D3) are the spec's own. -/
def Obligations.ShortToGroundOperation : Prop :=
  (∀ w : ReqWord, w &&& 0x300000003 = 0x100000002 ↔
    ∃ body scv, decodeReq w = .shortToGround body scv) ∧
  (∀ b0 b1 b2 b3 : Byte, b3.getLsbD 0 = false ∧ b3.getLsbD 1 = true ↔
    ∃ body scv, decodeReq (Request.delivered [b0, b1, b2, b3]).reqWord = .shortToGround body scv) ∧
  ∀ (body : FrameBody) (scv : Bool) (s : State),
    ∃ t, exec (.shortToGround body scv) s = .next t ∧
      t = { s with outcome := some (.fault .shortToGround) } ∧ t.resultPorts = ⟨2, 0, 0⟩

/-- SHORT_TO_SUPPLY: the row's words are exactly the instruction's; a delivered frame is one exactly
when bits 0 and 1 of byte 3 are clear and bit 2 set; the outcome is Fault(ShortToSupply), nothing
else of the state changes, and the result ports show code 3 and no temperature. The REQ word (D2),
the code (D4) and the ports (D3) are the spec's own. -/
def Obligations.ShortToSupplyOperation : Prop :=
  (∀ w : ReqWord, w &&& 0x300000007 = 0x100000004 ↔ ∃ body, decodeReq w = .shortToSupply body) ∧
  (∀ b0 b1 b2 b3 : Byte,
    b3.getLsbD 0 = false ∧ b3.getLsbD 1 = false ∧ b3.getLsbD 2 = true ↔
      ∃ body, decodeReq (Request.delivered [b0, b1, b2, b3]).reqWord = .shortToSupply body) ∧
  ∀ (body : FrameBody) (s : State),
    ∃ t, exec (.shortToSupply body) s = .next t ∧
      t = { s with outcome := some (.fault .shortToSupply) } ∧ t.resultPorts = ⟨3, 0, 0⟩

/-- READING: the row's words are exactly the instruction's; a delivered frame is one exactly when
the three fault bits are clear; the outcome is the two's-complement values of both fields, nothing
else of the state changes, and the result ports show code 0 and the fields' own bits. The REQ word
(D2), the code (D4) and the ports (D3) are the spec's own, and that the port bits equal the field
bits is its inference (R77). -/
def Obligations.ReadingOperation : Prop :=
  (∀ w : ReqWord, w &&& 0x300000007 = 0x100000000 ↔ ∃ body, decodeReq w = .reading body) ∧
  (∀ b0 b1 b2 b3 : Byte,
    b3.getLsbD 0 = false ∧ b3.getLsbD 1 = false ∧ b3.getLsbD 2 = false ↔
      ∃ body, decodeReq (Request.delivered [b0, b1, b2, b3]).reqWord = .reading body) ∧
  ∀ (body : FrameBody) (s : State),
    ∃ t, exec (.reading body) s = .next t ∧
      t = { s with outcome := some (.reading body.t.toInt body.c.toInt) } ∧
      t.resultPorts = ⟨0, body.t, body.c⟩

/-! ## Fault priority -/

/-- The outcome of a delivered frame is the first of its set fault bits in the order OpenCircuit,
ShortToGround, ShortToSupply, and the reading of both fields when none is set (R107). -/
def Obligations.FaultBitPriority : Prop :=
  ∀ (frame : Frame) (s : State),
    exec (decodeReq (requestOfFrame frame).reqWord) s = .next { s with outcome := some (
      if frame.getLsbD 0 then .fault .openCircuit
      else if frame.getLsbD 1 then .fault .shortToGround
      else if frame.getLsbD 2 then .fault .shortToSupply
      else .reading (sext (frame.extractLsb' 18 14)) (sext (frame.extractLsb' 4 12))) }

/-- Four is the only count that is a frame: every other count, 0 and those above 4 among them, is
MalformedFrame, and four bytes never are; nothing in the state changes the decoding (R74). -/
def Obligations.OnlyFourBytesAreAFrame : Prop :=
  ∀ bytes : List Byte, ∃ o,
    (∀ s : State, exec (decodeReq (Request.delivered bytes).reqWord) s =
      .next { s with outcome := some o }) ∧
    (bytes.length ≠ 4 ↔ o = .fault .malformedFrame)

/-- Two frames that differ only in bits 17 and 3 have the same outcome, and both complete (R62). -/
def Obligations.ReservedBitsIgnored : Prop :=
  ∀ (frame frame' : Frame) (s : State), agreeExcept [17, 3] frame frame' →
    ∃ o, exec (decodeReq (requestOfFrame frame).reqWord) s = .next { s with outcome := some o } ∧
      exec (decodeReq (requestOfFrame frame').reqWord) s = .next { s with outcome := some o }

/-- The fault flag is not consulted (R63): two frames that differ only in bit 16 have the same
outcome; a frame is classified by bits 0 to 2 alone, two frames equal in them having the same fault
or both a reading; a frame with bit 0 set is OpenCircuit and a frame with bits 0 to 2 clear a
Reading, whatever bit 16 holds; and `FF,FF,FF,F0` is a Reading although its flag disagrees. -/
def Obligations.FaultFlagNotConsulted : Prop :=
  (∀ (frame frame' : Frame) (s : State), agreeExcept [16] frame frame' →
    ∃ o, exec (decodeReq (requestOfFrame frame).reqWord) s = .next { s with outcome := some o } ∧
      exec (decodeReq (requestOfFrame frame').reqWord) s = .next { s with outcome := some o }) ∧
  (∀ (frame frame' : Frame) (s : State), frame.getLsbD 0 = frame'.getLsbD 0 →
    frame.getLsbD 1 = frame'.getLsbD 1 → frame.getLsbD 2 = frame'.getLsbD 2 →
      ∃ o o',
        exec (decodeReq (requestOfFrame frame).reqWord) s = .next { s with outcome := some o } ∧
        exec (decodeReq (requestOfFrame frame').reqWord) s = .next { s with outcome := some o' } ∧
        faultOf o = faultOf o') ∧
  (∀ (frame : Frame) (s : State), frame.getLsbD 0 = true →
    exec (decodeReq (requestOfFrame frame).reqWord) s =
      .next { s with outcome := some (.fault .openCircuit) }) ∧
  (∀ (frame : Frame) (s : State),
    frame.getLsbD 0 = false → frame.getLsbD 1 = false → frame.getLsbD 2 = false →
      ∃ tc cj, exec (decodeReq (requestOfFrame frame).reqWord) s =
        .next { s with outcome := some (.reading tc cj) }) ∧
  frameF 0xFFFFFFF0 = true ∧
  ∀ s : State, exec (decodeReq (Request.delivered [0xFF, 0xFF, 0xFF, 0xF0]).reqWord) s =
    .next { s with outcome := some (.reading (-1) (-1)) }

/-- Only TE, the count being four, and frame bits 0, 1 and 2 decide whether the outcome is a fault
and which (R110): two requests equal in these have the same fault, or both a reading. -/
def Obligations.FaultDecidedByFiveInputs : Prop :=
  ∀ (r r' : Request) (s : State), r.te = r'.te → r.lv = r'.lv →
    r.frame.getLsbD 0 = r'.frame.getLsbD 0 → r.frame.getLsbD 1 = r'.frame.getLsbD 1 →
    r.frame.getLsbD 2 = r'.frame.getLsbD 2 →
      ∃ o o', exec (decodeReq r.reqWord) s = .next { s with outcome := some o } ∧
        exec (decodeReq r'.reqWord) s = .next { s with outcome := some o' } ∧
        faultOf o = faultOf o'

/-- The fault operands are bits 0, 1 and 2 of byte 3, which are bits 0, 1 and 2 of the frame, and no
other bit is one: two frames with the same three operands have the same fault or none (R69). -/
def Obligations.FaultOperandsAreBitsOfByteThree : Prop :=
  (∀ b0 b1 b2 b3 : Byte,
    byteOc b3 = b3.getLsbD 0 ∧ frameOc (frameOfBytes b0 b1 b2 b3) = byteOc b3 ∧
    byteScg b3 = b3.getLsbD 1 ∧ frameScg (frameOfBytes b0 b1 b2 b3) = byteScg b3 ∧
    byteScv b3 = b3.getLsbD 2 ∧ frameScv (frameOfBytes b0 b1 b2 b3) = byteScv b3) ∧
  ∀ (b0 b1 b2 b3 b0' b1' b2' b3' : Byte) (s : State),
    byteOc b3 = byteOc b3' → byteScg b3 = byteScg b3' → byteScv b3 = byteScv b3' →
      ∃ o o', exec (decodeReq (Request.delivered [b0, b1, b2, b3]).reqWord) s =
          .next { s with outcome := some o } ∧
        exec (decodeReq (Request.delivered [b0', b1', b2', b3']).reqWord) s =
          .next { s with outcome := some o' } ∧
        faultOf o = faultOf o'

/-- The three wiring faults are kept distinct (R161): whatever the operands and the state, the three
operations go on to states with pairwise different outcomes. -/
def Obligations.WiringFaultsAreDistinct : Prop :=
  ∀ (b b' b'' : FrameBody) (scv scg scv' : Bool) (s : State),
    ∃ t u v, exec (.openCircuit b scv scg) s = .next t ∧ exec (.shortToGround b' scv') s = .next u ∧
      exec (.shortToSupply b'') s = .next v ∧
      t.outcome ≠ u.outcome ∧ u.outcome ≠ v.outcome ∧ t.outcome ≠ v.outcome

/-- Once a transaction has ended the status port shows one of the codes 0 to 5, and both temperature
ports are 0 unless it shows 0. The codes (D4), the ports (D3) and that they keep the last outcome
(log 4) are choices. -/
def Obligations.ResultPortsShowOneOutcome : Prop :=
  ∀ (i : Instr) (s t : State), exec i s = .next t →
    t.resultPorts.status ≠ 6 ∧ t.resultPorts.status ≠ 7 ∧
    (t.resultPorts.status ≠ 0 → t.resultPorts.tc = 0 ∧ t.resultPorts.cj = 0) ∧
    (t.resultPorts.status = 0 ↔ ∃ tc cj, t.outcome = some (.reading tc cj))

/-! ## Temperatures -/

/-- Sign extension (R12): of `N` bits it subtracts `2^N` when the top bit is set, and lies in
`[-2^(N-1), 2^(N-1) - 1]`; an arithmetic shift of the correctly widened 16-bit views gives the same
counts, and a logical shift without sign extension does not. -/
def Obligations.SignExtension : Prop :=
  (∀ (N : Nat) (v : BitVec N), 0 < N →
    sext v = (if v.getLsbD (N - 1) = true then (v.toNat : Int) - 2 ^ N else v.toNat) ∧
    -(2 ^ (N - 1) : Int) ≤ sext v ∧ sext v ≤ 2 ^ (N - 1) - 1) ∧
  (∀ hi lo : BitVec 16,
    sext (fieldT hi) = (hi.sshiftRight 2).toInt ∧ sext (fieldC lo) = (lo.sshiftRight 4).toInt) ∧
  (∃ hi lo : BitVec 16,
    sext (fieldT hi) ≠ ((hi >>> 2).toNat : Int) ∧ sext (fieldC lo) ≠ ((lo >>> 4).toNat : Int))

/-- A reading's counts are the sign-extended fields, in range, and the cold-junction count is never
a default: it is 0 only for a field of 0 (R122, R124, R125). -/
def Obligations.ReadingReturnsBothSignedCounts : Prop :=
  ∀ (body : FrameBody) (s : State),
    ∃ tc cj, exec (.reading body) s = .next { s with outcome := some (.reading tc cj) } ∧
      tc = (if body.t.getLsbD 13 then (body.t.toNat : Int) - 16384 else body.t.toNat) ∧
      -8192 ≤ tc ∧ tc ≤ 8191 ∧
      cj = (if body.c.getLsbD 11 then (body.c.toNat : Int) - 4096 else body.c.toNat) ∧
      -2048 ≤ cj ∧ cj ≤ 2047 ∧ (body.c ≠ 0 → cj ≠ 0)

/-- The fields through the 16-bit big-endian views and right shifts are `FRAME[31:18]` and
`FRAME[15:4]` (R68, R121, R123; that no shifted-out bit enters is the spec's inference), and they
are the fields a reading is decoded with. -/
def Obligations.ShiftedViewsAreTheFields : Prop :=
  ∀ b0 b1 b2 b3 : Byte,
    fieldT (be16 b0 b1) = (frameOfBytes b0 b1 b2 b3).extractLsb' 18 14 ∧
    fieldC (be16 b2 b3) = (frameOfBytes b0 b1 b2 b3).extractLsb' 4 12 ∧
    ∀ body, decodeReq (Request.delivered [b0, b1, b2, b3]).reqWord = .reading body →
      body.t = fieldT (be16 b0 b1) ∧ body.c = fieldC (be16 b2 b3)

/-- The physical temperatures of a reading are its counts over 4 and over 16, exactly: a reading's
outcome carries the counts, 0.25 is 1/4 and 0.0625 is 1/16, and multiplying back loses nothing
(R126). -/
def Obligations.TemperaturesAreExact : Prop :=
  ∀ (body : FrameBody) (s : State),
    ∃ tc cj x y, exec (.reading body) s = .next { s with outcome := some (.reading tc cj) } ∧
      celsius (.reading tc cj) = some (x, y) ∧
      x = tc * (1 / 4 : Rat) ∧ y = cj * (1 / 16 : Rat) ∧
      x = tc * (0.25 : Rat) ∧ y = cj * (0.0625 : Rat) ∧ x * 4 = tc ∧ y * 16 = cj

/-- Every reading is within -2048.0 .. 2047.75 °C and -128.0 .. 127.9375 °C, and the four extremes
are readings (R127, an inference of the spec's that corrects the source, C1). -/
def Obligations.TemperaturesWithinTheRepresentableRanges : Prop :=
  (∀ (body : FrameBody) (s : State),
    ∃ t o x y, exec (.reading body) s = .next t ∧ t.outcome = some o ∧ celsius o = some (x, y) ∧
      -2048 ≤ x ∧ x ≤ 8191 / 4 ∧ -128 ≤ y ∧ y ≤ 2047 / 16) ∧
  (∀ s : State,
    ∃ t u o o', exec (decodeReq (Request.delivered [0x7F, 0xFC, 0x7F, 0xF0]).reqWord) s = .next t ∧
      t.outcome = some o ∧ celsius o = some (8191 / 4, 2047 / 16) ∧
      exec (decodeReq (Request.delivered [0x80, 0x00, 0x80, 0x00]).reqWord) s = .next u ∧
      u.outcome = some o' ∧ celsius o' = some (-2048, -128))

/-- Every count of either field, encoded into its field of a frame with clear fault bits and decoded
again, comes back, whatever the other bits of the frame (the property is R128's); and sign extension
undoes reduction modulo `2^N`, the reason R128 gives, which is an inference the spec marks as its
own from R12. -/
def Obligations.CountsRoundTrip : Prop :=
  (∀ (tc cj : Int) (rsv17 f rsv3 : Bool) (s : State),
    -8192 ≤ tc → tc ≤ 8191 → -2048 ≤ cj → cj ≤ 2047 →
      exec (decodeReq (requestOfFrame
          (encodeFrame ⟨BitVec.ofInt 14 tc, rsv17, f, BitVec.ofInt 12 cj, rsv3⟩
            false false false)).reqWord) s =
        .next { s with outcome := some (.reading tc cj) }) ∧
  (∀ (N : Nat) (v : Int), 0 < N → -(2 ^ (N - 1) : Int) ≤ v → v ≤ 2 ^ (N - 1) - 1 →
    sext (BitVec.ofInt N v) = v)

/-- No carry, borrow or sign passes between the two fields (R130, an inference of the spec's): two
readings whose frames agree in bits 31 to 18 have the same thermocouple count, and two whose frames
agree in bits 15 to 4 the same cold-junction count. -/
def Obligations.TemperatureLanesAreIndependent : Prop :=
  ∀ (frame frame' : Frame) (s : State),
    frame.extractLsb' 0 3 = 0 → frame'.extractLsb' 0 3 = 0 →
      ∃ tc cj tc' cj',
        exec (decodeReq (requestOfFrame frame).reqWord) s =
          .next { s with outcome := some (.reading tc cj) } ∧
        exec (decodeReq (requestOfFrame frame').reqWord) s =
          .next { s with outcome := some (.reading tc' cj') } ∧
        ((∀ k, 18 ≤ k → frame.getLsbD k = frame'.getLsbD k) → tc = tc') ∧
        ((∀ k, 4 ≤ k → k ≤ 15 → frame.getLsbD k = frame'.getLsbD k) → cj = cj')

/-! ## The transaction -/

/-- The operation the REQ word of a request selects computes the algorithm over its bytes, for every
request, and changes nothing else (R100; its REQ word is the spec's own, D2, and so is the place of
its first two tests, D5). -/
def Obligations.OpcodeMapComputesTheAlgorithm : Prop :=
  ∀ (r : Request) (s : State),
    exec (decodeReq r.reqWord) s = .next { s with outcome := some (decodeTransaction r) }

/-- Each transaction ends with exactly one outcome: every step that takes a dutiful request, in any
of its forms or as the transport's answer to a call, goes on and hands back exactly one, a reading
or exactly one fault kind (R108). Choices of this model: the record of returns (log 15), a request
with no session (log 19), an answer as an interaction of its own (log 8), the duties of log 5 and
log 9. -/
def Obligations.ExactlyOneOutcome : Prop :=
  ∀ (s : State) (e : HostEvent) (c : Caller) (rest : List HostEvent), s.inbox = e :: rest →
    e.transactionFor = some c → e.dutiful s = true →
      ∃ t, step s = .next t ∧
        (∃! o, t.outcome = some o ∧ t.returns = s.returns ++ [.decoded c o]) ∧
        ((∃ tc cj, t.outcome = some (.reading tc cj)) ∨ ∃! k, t.outcome = some (.fault k)) ∧
        ¬ ((∃ tc cj, t.outcome = some (.reading tc cj)) ∧ ∃ k, t.outcome = some (.fault k))

/-- Equal requests give equal outcomes (R46), whatever came before, in whatever states and whatever
form they are presented in; a decode has no side effect at the boundary but handing its outcome
back, save that the answered exchange is over: a request at the block's input leaves every exchange
in flight, an answer on a session ends that session's exchange and leaves every other; and two
exchanges of one session in one state may return different bytes, so two calls may return different
outcomes. Choices of this model: the record of returns (log 15), an answer as an interaction of its
own (log 8), a request with no session (log 19), the duties of log 5 and log 9. -/
def Obligations.EqualRequestsEqualOutcomes : Prop :=
  (∀ (s s' : State) (e e' : HostEvent) (i : Instr) (c : Caller) (rest rest' : List HostEvent),
    s.inbox = e :: rest → s'.inbox = e' :: rest' → e.instr = some i → e'.instr = some i →
    e.transactionFor = some c → e.dutiful s = true → e'.dutiful s' = true →
      ∃ t t' o, step s = .next t ∧ step s' = .next t' ∧ t.outcome = some o ∧ t'.outcome = some o ∧
        t.inbox = rest ∧ t.sessions = s.sessions ∧ t.returns = s.returns ++ [.decoded c o] ∧
        (c = .ports → t.pending = s.pending) ∧
        (∀ n, c = .session n → t.pending = s.pending.filter (fun x => x.session != n))) ∧
  (∃ (s : State) (r r' : Request) (t t' : State),
    step { s with inbox := [.answer 0 r] } = .next t ∧
    step { s with inbox := [.answer 0 r'] } = .next t' ∧ t.outcome ≠ t'.outcome)

/-! ## Steps -/

/-- A step runs the decoded instruction: when the bits that stand first in the inbox decode to an
instruction, the step is exec of it in the state with the bits taken out and the step counted, and
what exec's outcome is then handed back; the same for a request and for the request ports. Choices
of this model: that these run with no session and their outcome goes to whoever drives the ports
(log 19), the word as a number (log 5), the counted step (log 3), the record of returns (log 15). -/
def Obligations.StepRunsTheDecodedInstruction : Prop :=
  ∀ (s : State) (rest : List HostEvent) (e : HostEvent) (i : Instr),
    s.inbox = e :: rest →
    ((∃ n, e = .word n ∧ decodeWord n = .ok i) ∨
      (∃ r, e = .request r ∧ decodeReq r.reqWord = i) ∨
      (∃ p, e = .ports p ∧ decodeReq p.reqWord = i)) →
      step s =
        match exec i { s with inbox := rest, ticks := s.ticks + 1 } with
        | .next t => .next (t.surface .ports)
        | .fault f => .fault f
        | .refused r => .refused r

/-- The step that takes an answer runs the answer's instruction, in the state whose exchange of that
session is no longer in flight, and surfaces its outcome to that session's caller (R145). Choices of
this model: an answer as an interaction of its own (log 8) that stands in the inbox (log 10), the
counted step (log 3), the record of returns (log 15). -/
def Obligations.AnswerRunsTheDecodedInstruction : Prop :=
  ∀ (s : State) (rest : List HostEvent) (n : Nat) (r : Request),
    s.inbox = .answer n r :: rest → s.busy n = true →
      step s =
        match exec (decodeReq r.reqWord)
          { s with inbox := rest, ticks := s.ticks + 1,
                   pending := s.pending.filter (·.session != n) } with
        | .next t => .next (t.surface (.session n))
        | .fault f => .fault f
        | .refused r => .refused r

/-- The word placed for the very next step is the one it runs, and what was presented before is
still there after it. All of it is this model's choice: how a program comes to run (log 14), the
word as a number (log 5), the counted step (log 3), the record of returns (log 15), a word with no
session (log 19). -/
def Obligations.FetchWordIsRunNext : Prop :=
  ∀ (s : State) (nbits w : Nat) (i : Instr), decodeTableWord nbits w = some i →
    ∃ o t, exec i s = .next { s with outcome := some o } ∧ step (s.withFetchWord nbits w) = .next t ∧
      t = { s with outcome := some o, ticks := s.ticks + 1,
                   returns := s.returns ++ [.decoded .ports o] }

/-! ## The boundary -/

/-- `open()`: success gives the caller a new session, failure yields TransportError and no session;
neither touches the block (R141, D12). Choices of this model: the session's number (log 7), the
counted step (log 3), the record of returns (log 15). -/
def Obligations.OpenGivesASessionOrTransportError : Prop :=
  ∀ (s : State) (rest : List HostEvent),
    (s.inbox = .openOk :: rest →
      step s = .next { s with inbox := rest, ticks := s.ticks + 1, sessions := s.sessions + 1,
                              returns := s.returns ++ [.opened s.sessions] }) ∧
    (s.inbox = .openFailed :: rest →
      step s = .next { s with inbox := rest, ticks := s.ticks + 1,
                              returns := s.returns ++ [.openFails .transportError] })

/-- A call on an open session with no exchange in flight issues exactly one exchange, with no
outbound sequence and an inbound count of 4, and the caller gets no outcome yet (R143, R145; D10, log
18). Choices of this model: a call as an interaction of its own (log 8), the session's number (log
7), the counted step (log 3). -/
def Obligations.CallIssuesTheReadersExchange : Prop :=
  ∀ (s : State) (rest : List HostEvent) (n : Nat), s.inbox = .call n :: rest →
    n < s.sessions → (∀ x ∈ s.pending, x.session ≠ n) →
      step s = .next { s with inbox := rest, ticks := s.ticks + 1,
                              pending := s.pending ++ [⟨n, none, 4⟩] }

/-- The broken duties, each refused by its own name: a call without a session (R148, D12), a call
on a session whose exchange is in flight (R183, D14), an answer nobody waits for (log 9), bits
wider than a REQ word (log 5). -/
def Obligations.BrokenDutiesAreRefusedByName : Prop :=
  ∀ (s : State) (rest : List HostEvent) (n : Nat),
    (s.inbox = .call n :: rest → s.sessions ≤ n → step s = .refused .noSession) ∧
    (s.inbox = .call n :: rest → n < s.sessions → (∃ x ∈ s.pending, x.session = n) →
      step s = .refused .overlappingCall) ∧
    (∀ r, s.inbox = .answer n r :: rest → (∀ x ∈ s.pending, x.session ≠ n) →
      step s = .refused .noExchangePending) ∧
    (s.inbox = .word n :: rest → 2 ^ 34 ≤ n → step s = .refused .wordWiderThanReq)

/-- A step goes on exactly when nothing is presented or the first interaction keeps the duties of
callers and transport; no request is ever refused (R72, R149; D12, D14). Choices of this model: that
a step goes on when nothing is presented (log 2), that a word wider than 34 bits is refused (log 5)
and that an answer nobody waits for is (log 9). -/
def Obligations.StepGoesOnExactlyWhenDutiful : Prop :=
  ∀ s : State, (∃ t, step s = .next t) ↔ ∀ e rest, s.inbox = e :: rest → e.dutiful s = true

/-- A blocked caller stays blocked and gets nothing until the transport answers its session: no
time-out and no cancellation (R147, D11). A transport that never answers leaves it so for ever, and
the machine still goes on when nothing is presented. Choices of this model: the idle step (log 2),
the blocked call as an exchange in flight (log 8), the record of returns (log 15). -/
def Obligations.BlockedCallWaitsForItsAnswer : Prop :=
  ∀ (s : State) (n : Nat), s.busy n = true →
    (s.inbox = [] → ∃ t, step s = .next t) ∧
    ∀ t, step s = .next t → (∀ r rest, s.inbox ≠ .answer n r :: rest) →
      t.busy n = true ∧ t.outcomesOf (.session n) = s.outcomesOf (.session n)

/-- `getTemperature()` calls made one after another on one session, any number of them with any
answers: each is one exchange and one decode of its answer, and the caller gets the algorithm's
outcomes in the order of the calls (R145, R49). Choices of this model: a call as two interactions
(log 8), the answers in the inbox (log 10), the session's number (log 7), the counted step (log 3),
the record of returns (log 15). -/
def Obligations.CallsReturnInOrder : Prop :=
  ∀ (answers : List Request) (s : State) (n : Nat) (rest : List HostEvent),
    n < s.sessions → (∀ x ∈ s.pending, x.session ≠ n) →
    s.inbox = answers.flatMap (fun r => [.call n, .answer n r]) ++ rest →
      Host.Core.run Sys2Proof.core (2 * answers.length) s =
        .next { s with
          inbox := rest
          ticks := s.ticks + 2 * answers.length
          outcome := (answers.getLast?.map decodeTransaction).or s.outcome
          returns := s.returns ++
            answers.map (fun r => .decoded (.session n) (decodeTransaction r)) }

/-- Calls on distinct sessions do not interfere: answered in either order, each caller gets the
outcome of its own answer, and only the order of completion differs (R49, R170). Choices of this
model: concurrency as interleaving (log 17), an answer as an interaction of its own (log 8), the
record of returns (log 15). -/
def Obligations.SessionsDoNotInterfere : Prop :=
  ∀ (s : State) (a b : Nat) (ra rb : Request) (rest : List HostEvent),
    a ≠ b → s.busy a = true → s.busy b = true →
      ∃ t u,
        Host.Core.run Sys2Proof.core 2
          { s with inbox := .answer a ra :: .answer b rb :: rest } = .next t ∧
        Host.Core.run Sys2Proof.core 2
          { s with inbox := .answer b rb :: .answer a ra :: rest } = .next u ∧
        (∀ c, t.outcomesOf c = u.outcomesOf c) ∧
        t.outcomesOf (.session a) = s.outcomesOf (.session a) ++ [decodeTransaction ra] ∧
        t.outcomesOf (.session b) = s.outcomesOf (.session b) ++ [decodeTransaction rb] ∧
        t.pending = u.pending ∧ t.sessions = u.sessions ∧ t.inbox = rest ∧ u.inbox = rest

/-- With nothing presented a step only counts itself: this model's choice (log 2, and log 3 for the
counter). -/
def Obligations.IdleStepOnlyCounts : Prop :=
  ∀ s : State, s.inbox = [] → step s = .next { s with ticks := s.ticks + 1 }

/-! ## The invariant -/

/-- After reset no outcome stands, no session is open and the invariant holds (R180, R181; the empty
boundary is this model's, log 16). -/
def Obligations.ResetMeetsTheInvariant : Prop :=
  State.reset.Inv ∧ State.reset.outcome = none ∧ State.reset.sessions = 0 ∧
    State.reset.pending = [] ∧ State.reset.returns = []

/-- Every step keeps the invariant: outcomes in range, exchanges in flight the Frame Reader's own on
open sessions, at most one a session, and callers handed only what the spec gives them. -/
def Obligations.StepKeepsTheInvariant : Prop :=
  ∀ s t : State, s.Inv → step s = .next t → t.Inv
end

