-- ==== Sys2Proof/Laws/Decode.lean ====
section
/-! SUPPORT. Bit-level lemmas: bit `k` of every concatenation, and the fields read back from an
encoded frame and an encoded word. -/

namespace Sys2Proof

/-! ## Bits of the concatenations -/

theorem getLsbD_frameOfBytes (b0 b1 b2 b3 : Byte) (k : Nat) :
    (frameOfBytes b0 b1 b2 b3).getLsbD k =
      if k < 8 then b3.getLsbD k
      else if k < 16 then b2.getLsbD (k - 8)
      else if k < 24 then b1.getLsbD (k - 16)
      else b0.getLsbD (k - 24) := by
  simp only [frameOfBytes, BitVec.getLsbD_cast, BitVec.getLsbD_append, Nat.sub_sub]
  split_ifs <;> first | rfl | omega

theorem getLsbD_encodeFrame (b : FrameBody) (scv scg oc : Bool) (k : Nat) :
    (encodeFrame b scv scg oc).getLsbD k =
      if k = 0 then oc
      else if k = 1 then scg
      else if k = 2 then scv
      else if k = 3 then b.rsv3
      else if k < 16 then b.c.getLsbD (k - 4)
      else if k = 16 then b.f
      else if k = 17 then b.rsv17
      else b.t.getLsbD (k - 18) := by
  simp only [encodeFrame, BitVec.getLsbD_cast, BitVec.getLsbD_append, BitVec.getLsbD_ofBool,
    Nat.sub_sub]
  by_cases h : k < 18
  · interval_cases k <;> rfl
  · have below : ∀ n ≤ 18, ¬ k < n := fun n hn => by omega
    have apart : ∀ n < 18, k ≠ n := fun n hn => by omega
    have beyond : ∀ m n, m + n ≤ 18 → ¬ k - m < n := fun m n hmn => by omega
    simp [below, apart, beyond]

theorem getLsbD_packReq (te lv : Bool) (frame : Frame) (k : Nat) :
    (packReq te lv frame).getLsbD k =
      if k < 32 then frame.getLsbD k else if k = 32 then lv else if k = 33 then te else false := by
  simp only [packReq, BitVec.getLsbD_cast, BitVec.getLsbD_append, BitVec.getLsbD_ofBool,
    Nat.sub_sub]
  split_ifs <;> first | omega | simp_all; try omega

/-! ## Fields of an encoded frame -/

@[simp] theorem frameT_encodeFrame (b : FrameBody) (scv scg oc : Bool) :
    frameT (encodeFrame b scv scg oc) = b.t := by
  apply BitVec.eq_of_getLsbD_eq
  intro k hk
  rw [frameT, BitVec.getLsbD_extractLsb', getLsbD_encodeFrame]
  split_ifs <;> first | omega | simp [hk]

@[simp] theorem frameC_encodeFrame (b : FrameBody) (scv scg oc : Bool) :
    frameC (encodeFrame b scv scg oc) = b.c := by
  apply BitVec.eq_of_getLsbD_eq
  intro k hk
  rw [frameC, BitVec.getLsbD_extractLsb', getLsbD_encodeFrame]
  split_ifs <;> first | omega | simp [hk]

@[simp] theorem frameBody_encodeFrame (b : FrameBody) (scv scg oc : Bool) :
    frameBody (encodeFrame b scv scg oc) = b := by
  cases b
  simp [frameBody, frameRsv17, frameF, frameRsv3, getLsbD_encodeFrame, -BitVec.getLsbD_eq_getElem]

@[simp] theorem frameOc_encodeFrame (b : FrameBody) (scv scg oc : Bool) :
    frameOc (encodeFrame b scv scg oc) = oc := by
  rw [frameOc, getLsbD_encodeFrame]; rfl

@[simp] theorem frameScg_encodeFrame (b : FrameBody) (scv scg oc : Bool) :
    frameScg (encodeFrame b scv scg oc) = scg := by
  rw [frameScg, getLsbD_encodeFrame]; rfl

@[simp] theorem frameScv_encodeFrame (b : FrameBody) (scv scg oc : Bool) :
    frameScv (encodeFrame b scv scg oc) = scv := by
  rw [frameScv, getLsbD_encodeFrame]; rfl

/-! ## Fields of a packed word -/

@[simp] theorem reqFrame_packReq (te lv : Bool) (frame : Frame) :
    reqFrame (packReq te lv frame) = frame := by
  apply BitVec.eq_of_getLsbD_eq
  intro k hk
  rw [reqFrame, BitVec.getLsbD_extractLsb', getLsbD_packReq]
  split_ifs <;> first | omega | simp [hk]

/-- What the decoder does with a packed word. -/
theorem decodeReq_packReq (te lv : Bool) (frame : Frame) :
    decodeReq (packReq te lv frame) =
      if te then .transportError lv frame
      else if lv then decodeFrame frame else .malformedFrame frame := by
  rw [decodeReq, reqFrame_packReq, getLsbD_packReq, getLsbD_packReq]
  rfl

/-- The instruction of a request's REQ word. -/
theorem decodeReq_reqWord (r : Request) :
    decodeReq r.reqWord =
      if r.te then .transportError r.lv r.frame
      else if r.lv then decodeFrame r.frame else .malformedFrame r.frame :=
  decodeReq_packReq r.te r.lv r.frame

/-! ## Frames and their bytes -/

/-- A frame is the concatenation of its bytes. -/
theorem frameOfBytes_extract (frame : Frame) :
    frameOfBytes (frame.extractLsb' 24 8) (frame.extractLsb' 16 8) (frame.extractLsb' 8 8)
      (frame.extractLsb' 0 8) = frame := by
  apply BitVec.eq_of_getLsbD_eq
  intro k hk
  rw [getLsbD_frameOfBytes]
  simp only [BitVec.getLsbD_extractLsb']
  interval_cases k <;> rfl

/-- The REQ word of a four-byte delivery. -/
theorem reqWord_delivered (b0 b1 b2 b3 : Byte) :
    (Request.delivered [b0, b1, b2, b3]).reqWord =
      packReq false true (frameOfBytes b0 b1 b2 b3) := rfl

end Sys2Proof
end

