-- ==== Sys2Proof/Laws/State.lean ====
section
/-! SUPPORT. One lemma per field per update of the state. -/

namespace Sys2Proof.Machine

/-! ## drive -/

@[simp] theorem State.drive_inbox (o : DecodeOutcome) (s : State) : (s.drive o).inbox = s.inbox := rfl
@[simp] theorem State.drive_sessions (o : DecodeOutcome) (s : State) :
    (s.drive o).sessions = s.sessions := rfl
@[simp] theorem State.drive_pending (o : DecodeOutcome) (s : State) :
    (s.drive o).pending = s.pending := rfl
@[simp] theorem State.drive_outcome (o : DecodeOutcome) (s : State) :
    (s.drive o).outcome = some o := rfl
@[simp] theorem State.drive_returns (o : DecodeOutcome) (s : State) :
    (s.drive o).returns = s.returns := rfl
@[simp] theorem State.drive_ticks (o : DecodeOutcome) (s : State) : (s.drive o).ticks = s.ticks := rfl
@[simp] theorem State.drive_resultPorts (o : DecodeOutcome) (s : State) :
    (s.drive o).resultPorts = outcomePorts o := rfl

/-! ## tick -/

@[simp] theorem State.tick_inbox (s : State) : s.tick.inbox = s.inbox := rfl
@[simp] theorem State.tick_sessions (s : State) : s.tick.sessions = s.sessions := rfl
@[simp] theorem State.tick_pending (s : State) : s.tick.pending = s.pending := rfl
@[simp] theorem State.tick_outcome (s : State) : s.tick.outcome = s.outcome := rfl
@[simp] theorem State.tick_returns (s : State) : s.tick.returns = s.returns := rfl
@[simp] theorem State.tick_ticks (s : State) : s.tick.ticks = s.ticks + 1 := rfl

/-! ## take -/

@[simp] theorem State.take_inbox (l : List HostEvent) (s : State) : (s.take l).inbox = l := rfl
@[simp] theorem State.take_sessions (l : List HostEvent) (s : State) :
    (s.take l).sessions = s.sessions := rfl
@[simp] theorem State.take_pending (l : List HostEvent) (s : State) :
    (s.take l).pending = s.pending := rfl
@[simp] theorem State.take_outcome (l : List HostEvent) (s : State) :
    (s.take l).outcome = s.outcome := rfl
@[simp] theorem State.take_returns (l : List HostEvent) (s : State) :
    (s.take l).returns = s.returns := rfl
@[simp] theorem State.take_ticks (l : List HostEvent) (s : State) :
    (s.take l).ticks = s.ticks + 1 := rfl
@[simp] theorem State.take_hasSession (n : Nat) (l : List HostEvent) (s : State) :
    (s.take l).hasSession n = s.hasSession n := rfl
@[simp] theorem State.take_busy (n : Nat) (l : List HostEvent) (s : State) :
    (s.take l).busy n = s.busy n := rfl

/-! ## handBack -/

@[simp] theorem State.handBack_inbox (r : Return) (s : State) : (s.handBack r).inbox = s.inbox := rfl
@[simp] theorem State.handBack_sessions (r : Return) (s : State) :
    (s.handBack r).sessions = s.sessions := rfl
@[simp] theorem State.handBack_pending (r : Return) (s : State) :
    (s.handBack r).pending = s.pending := rfl
@[simp] theorem State.handBack_outcome (r : Return) (s : State) :
    (s.handBack r).outcome = s.outcome := rfl
@[simp] theorem State.handBack_returns (r : Return) (s : State) :
    (s.handBack r).returns = s.returns ++ [r] := rfl
@[simp] theorem State.handBack_ticks (r : Return) (s : State) : (s.handBack r).ticks = s.ticks := rfl

/-! ## surface, after an outcome has been driven -/

@[simp] theorem State.surface_drive (c : Caller) (o : DecodeOutcome) (s : State) :
    (s.drive o).surface c = (s.drive o).handBack (.decoded c o) := rfl

/-! ## openSession and failOpen -/

@[simp] theorem State.openSession_inbox (s : State) : s.openSession.inbox = s.inbox := rfl
@[simp] theorem State.openSession_sessions (s : State) :
    s.openSession.sessions = s.sessions + 1 := rfl
@[simp] theorem State.openSession_pending (s : State) : s.openSession.pending = s.pending := rfl
@[simp] theorem State.openSession_outcome (s : State) : s.openSession.outcome = s.outcome := rfl
@[simp] theorem State.openSession_returns (s : State) :
    s.openSession.returns = s.returns ++ [.opened s.sessions] := rfl
@[simp] theorem State.openSession_ticks (s : State) : s.openSession.ticks = s.ticks := rfl

@[simp] theorem State.failOpen_eq (s : State) :
    s.failOpen = s.handBack (.openFails .transportError) := rfl

/-! ## issue -/

@[simp] theorem State.issue_inbox (n : Nat) (s : State) : (s.issue n).inbox = s.inbox := rfl
@[simp] theorem State.issue_sessions (n : Nat) (s : State) : (s.issue n).sessions = s.sessions := rfl
@[simp] theorem State.issue_pending (n : Nat) (s : State) :
    (s.issue n).pending = s.pending ++ [readerExchange n] := rfl
@[simp] theorem State.issue_outcome (n : Nat) (s : State) : (s.issue n).outcome = s.outcome := rfl
@[simp] theorem State.issue_returns (n : Nat) (s : State) : (s.issue n).returns = s.returns := rfl
@[simp] theorem State.issue_ticks (n : Nat) (s : State) : (s.issue n).ticks = s.ticks := rfl
@[simp] theorem readerExchange_session (n : Nat) : (readerExchange n).session = n := rfl

/-! ## complete -/

@[simp] theorem State.complete_inbox (n : Nat) (s : State) : (s.complete n).inbox = s.inbox := rfl
@[simp] theorem State.complete_sessions (n : Nat) (s : State) :
    (s.complete n).sessions = s.sessions := rfl
@[simp] theorem State.complete_pending (n : Nat) (s : State) :
    (s.complete n).pending = s.pending.filter (·.session != n) := rfl
@[simp] theorem State.complete_outcome (n : Nat) (s : State) :
    (s.complete n).outcome = s.outcome := rfl
@[simp] theorem State.complete_returns (n : Nat) (s : State) :
    (s.complete n).returns = s.returns := rfl
@[simp] theorem State.complete_ticks (n : Nat) (s : State) : (s.complete n).ticks = s.ticks := rfl

/-! ## presentWord -/

@[simp] theorem State.presentWord_inbox (n : Nat) (s : State) :
    (s.presentWord n).inbox = .word n :: s.inbox := rfl
@[simp] theorem State.withFetchWord_eq (nbits w : Nat) (s : State) :
    s.withFetchWord nbits w = s.presentWord (tableBits nbits w) := rfl

end Sys2Proof.Machine
end

