-- ==== Sys2Proof/Laws/Ops.lean ====
section
/-! SUPPORT. What each shared operation can do, said once: sign extension stays in range, an
instruction always goes on with an outcome in range, and what one interaction can lead to. -/

namespace Sys2Proof.Machine

/-! ## Sign extension -/

/-- The model's sign extension is the two's-complement value of the bits. -/
theorem sext_eq_toInt {N : Nat} (v : BitVec N) : sext v = v.toInt := by
  unfold sext
  rw [BitVec.toInt_eq_msb_cond, BitVec.msb_eq_getLsbD_last]
  norm_cast

theorem tcCount_bounds (t : BitVec 14) : -8192 ≤ tcCount t ∧ tcCount t ≤ 8191 := by
  have h1 := BitVec.le_toInt t
  have h2 := BitVec.toInt_lt (x := t)
  simp only [tcCount, sext_eq_toInt] at *
  norm_num at h1 h2
  omega

theorem cjCount_bounds (c : BitVec 12) : -2048 ≤ cjCount c ∧ cjCount c ≤ 2047 := by
  have h1 := BitVec.le_toInt c
  have h2 := BitVec.toInt_lt (x := c)
  simp only [cjCount, sext_eq_toInt] at *
  norm_num at h1 h2
  omega

/-! ## Ending a transaction -/

@[simp] theorem raiseFault_eq (k : FaultKind) (s : State) :
    raiseFault k s = .next (s.drive (.fault k)) := rfl

@[simp] theorem returnReading_eq (tc cj : Int) (s : State) :
    returnReading tc cj s = .next (s.drive (.reading tc cj)) := rfl

/-- Everything an instruction can do: it goes on, drives an outcome in range that depends on the
instruction alone, and changes nothing else. -/
theorem exec_drives (i : Instr) :
    ∃ o, outcomeInRange o = true ∧ ∀ s, exec i s = .next (s.drive o) := by
  cases i with
  | transportError lv data => exact ⟨_, rfl, fun _ => rfl⟩
  | malformedFrame data => exact ⟨_, rfl, fun _ => rfl⟩
  | openCircuit body scv scg => exact ⟨_, rfl, fun _ => rfl⟩
  | shortToGround body scv => exact ⟨_, rfl, fun _ => rfl⟩
  | shortToSupply body => exact ⟨_, rfl, fun _ => rfl⟩
  | reading body =>
    refine ⟨_, ?_, fun _ => rfl⟩
    obtain ⟨h1, h2⟩ := tcCount_bounds body.t
    obtain ⟨h3, h4⟩ := cjCount_bounds body.c
    simp [outcomeInRange, h1, h2, h3, h4]

/-- A transaction goes on, and hands its caller the outcome it drives. -/
theorem transact_drives (c : Caller) (i : Instr) (s : State) :
    ∃ o, outcomeInRange o = true ∧ (∀ u, exec i u = .next (u.drive o)) ∧
      transact c i s = .next ((s.drive o).handBack (.decoded c o)) := by
  obtain ⟨o, ho, h⟩ := exec_drives i
  exact ⟨o, ho, h, by simp [transact, h]⟩

/-! ## The boundary -/

/-- A session is busy when one of the exchanges in flight is its own. -/
theorem State.busy_iff (n : Nat) (s : State) :
    s.busy n = true ↔ ∃ x ∈ s.pending, x.session = n := by
  simp [State.busy]

/-- A session exists when its place in the order of opening is below the count of sessions. -/
theorem State.hasSession_iff (n : Nat) (s : State) : s.hasSession n = true ↔ n < s.sessions :=
  decide_eq_true_iff

/-- What a caller has been handed by transactions, after one more outcome is handed back. -/
theorem State.outcomesOf_handBack (c d : Caller) (o : DecodeOutcome) (s : State) :
    (s.handBack (.decoded c o)).outcomesOf d =
      s.outcomesOf d ++ if c = d then [o] else [] := by
  simp only [State.outcomesOf, State.handBack_returns, List.filterMap_append]
  split_ifs with h <;> simp [h]

/-- Everything an interaction can lead to, when it leads on. -/
theorem interact_cases {e : HostEvent} {s t : State} (h : interact e s = .next t) :
    (∃ c o, outcomeInRange o = true ∧
      (e.dutiful s = true ∧ (∀ n r, e ≠ .answer n r) ∧ c = .ports ∧
        t = (s.drive o).handBack (.decoded c o))) ∨
    (∃ n r o, e = .answer n r ∧ s.busy n = true ∧ outcomeInRange o = true ∧
      (∀ u, exec (decodeReq r.reqWord) u = .next (u.drive o)) ∧
      t = ((s.complete n).drive o).handBack (.decoded (.session n) o)) ∨
    (e = .openOk ∧ t = s.openSession) ∨
    (e = .openFailed ∧ t = s.failOpen) ∨
    (∃ n, e = .call n ∧ s.hasSession n = true ∧ s.busy n = false ∧ t = s.issue n) := by
  cases e with
  | word bits =>
    left
    by_cases hb : bits < 2 ^ 34
    · obtain ⟨o, ho, -, hi⟩ := transact_drives .ports (decodeReq (BitVec.ofNat 34 bits)) s
      have ht : interact (.word bits) s = .next ((s.drive o).handBack (.decoded .ports o)) := by
        simp only [interact, decodeWord, if_pos hb, hi]
      rw [ht] at h
      injection h with h
      exact ⟨.ports, o, ho, by simpa [HostEvent.dutiful] using hb, by simp, rfl, h.symm⟩
    · simp only [interact, decodeWord, if_neg hb] at h
      cases h
  | ports p =>
    obtain ⟨o, ho, -, hi⟩ := transact_drives .ports (decodeReq p.reqWord) s
    simp only [interact, hi] at h
    injection h with h
    exact .inl ⟨.ports, o, ho, rfl, by simp, rfl, h.symm⟩
  | request r =>
    obtain ⟨o, ho, -, hi⟩ := transact_drives .ports (decodeReq r.reqWord) s
    simp only [interact, hi] at h
    injection h with h
    exact .inl ⟨.ports, o, ho, rfl, by simp, rfl, h.symm⟩
  | openOk =>
    injection h with h
    exact .inr (.inr (.inl ⟨rfl, h.symm⟩))
  | openFailed =>
    injection h with h
    exact .inr (.inr (.inr (.inl ⟨rfl, h.symm⟩)))
  | call n =>
    cases hs : s.hasSession n <;> cases hb : s.busy n <;>
      simp [interact, startCall, hs, hb] at h
    exact .inr (.inr (.inr (.inr ⟨n, rfl, hs, hb, h.symm⟩)))
  | answer n r =>
    cases hb : s.busy n
    · simp [interact, finishCall, hb] at h
    · obtain ⟨o, ho, he, hi⟩ := transact_drives (.session n) (decodeReq r.reqWord) (s.complete n)
      simp only [interact, finishCall, hb, if_true, hi] at h
      injection h with h
      exact .inr (.inl ⟨n, r, o, rfl, hb, ho, he, h.symm⟩)

/-- Everything a step can do: nothing but count when nothing is presented, else one interaction. -/
theorem step_cases (s : State) :
    (s.inbox = [] ∧ step s = .next s.tick) ∨
    (∃ e rest, s.inbox = e :: rest ∧ step s = interact e (s.take rest)) := by
  unfold step takeStep
  cases h : s.inbox with
  | nil => exact .inl ⟨rfl, rfl⟩
  | cons e rest => exact .inr ⟨e, rest, rfl, rfl⟩

/-- The step when an interaction stands first in the inbox. -/
theorem step_of_inbox {s : State} {e : HostEvent} {rest : List HostEvent}
    (h : s.inbox = e :: rest) : step s = interact e (s.take rest) := by
  simp [step, takeStep, h]

/-- A run that begins with a step that goes on is the rest of the run from there. -/
theorem run_of_step {s t : State} (h : step s = .next t) (k : Nat) :
    Host.Core.run Sys2Proof.core (k + 1) s = Host.Core.run Sys2Proof.core k t := by
  have : Sys2Proof.core.step s = .next t := h
  simp [Host.Core.run, this]

end Sys2Proof.Machine
end

