-- ==== Sys2Proof/Laws/PerInstr.lean ====
section
/-! SUPPORT. The families stated for every instruction, one lemma per constructor. -/

namespace Sys2Proof.Laws.RowSelects

/-- The row the opcode map gives an instruction's operation selects the instruction's word (R70,
R71). -/
def Statement (i : Instr) : Prop := (opcodeRow i.operation).selects (encode i) = true

/-- A row selects a word when they agree in every bit of its mask. -/
theorem selects_of_bits {row : OpcodeRow} {w : ReqWord}
    (h : ∀ k < 34, (w.getLsbD k && row.mask.getLsbD k) = row.pattern.getLsbD k) :
    row.selects w = true := by
  rw [OpcodeRow.selects, beq_iff_eq]
  apply BitVec.eq_of_getLsbD_eq
  intro k hk
  rw [BitVec.getLsbD_and, h k hk]

theorem transportError (lv : Bool) (data : Frame) : Statement (.transportError lv data) := by
  apply selects_of_bits
  intro k hk
  rw [encode, getLsbD_packReq]
  interval_cases k <;> simp [opcodeRow, Instr.operation]

theorem malformedFrame (data : Frame) : Statement (.malformedFrame data) := by
  apply selects_of_bits
  intro k hk
  rw [encode, getLsbD_packReq]
  interval_cases k <;> simp [opcodeRow, Instr.operation]

theorem openCircuit (body : FrameBody) (scv scg : Bool) :
    Statement (.openCircuit body scv scg) := by
  apply selects_of_bits
  intro k hk
  rw [encode, getLsbD_packReq, getLsbD_encodeFrame]
  interval_cases k <;> simp [opcodeRow, Instr.operation]

theorem shortToGround (body : FrameBody) (scv : Bool) : Statement (.shortToGround body scv) := by
  apply selects_of_bits
  intro k hk
  rw [encode, getLsbD_packReq, getLsbD_encodeFrame]
  interval_cases k <;> simp [opcodeRow, Instr.operation]

theorem shortToSupply (body : FrameBody) : Statement (.shortToSupply body) := by
  apply selects_of_bits
  intro k hk
  rw [encode, getLsbD_packReq, getLsbD_encodeFrame]
  interval_cases k <;> simp [opcodeRow, Instr.operation]

theorem reading (body : FrameBody) : Statement (.reading body) := by
  apply selects_of_bits
  intro k hk
  rw [encode, getLsbD_packReq, getLsbD_encodeFrame]
  interval_cases k <;> simp [opcodeRow, Instr.operation]

end Sys2Proof.Laws.RowSelects
end

