-- ==== Sys2Proof/Tests/Slice0.lean ====
section
/-! SUPPORT. The model's own tests: ill-formed terms refused, words of the spec decoded, one step of
each operation on the spec's vectors (`95_test_vectors.md`), and a witness for the hypotheses of
every statement that has some. Expected results are the spec's. -/

namespace Sys2Proof.Tests

open Sys2Proof Sys2Proof.Machine

/-! ## Well-formedness: each check refuses an ill-formed term -/

theorem smoke_te_with_lv : (Instr.transportError true 0).wellFormed = false := by decide
theorem smoke_te_with_data : (Instr.transportError false 1).wellFormed = false := by decide
theorem smoke_mf_with_data : (Instr.malformedFrame 0x80000000).wellFormed = false := by decide
theorem smoke_count_too_wide : (RequestPorts.mk false 8 0).wellFormed 3 = false := by decide
theorem smoke_well_formed : (Instr.transportError false 0).wellFormed = true ∧
    (Instr.malformedFrame 0).wellFormed = true ∧
    (RequestPorts.mk false 7 0).wellFormed 3 = true := by decide

/-! ## Decoding: words written out bit by bit from the patterns of R70 -/

/-- `1xxx…`: bit 33 set, bit 32 clear, the frame clear (W7). -/
theorem decode_transportError :
    decodeReq 0b1000000000000000000000000000000000#34 = .transportError false 0 := by decide

/-- `00xxx…`: bits 33 and 32 clear (V11). -/
theorem decode_malformedFrame :
    decodeReq 0b0000000000000000000000000000000000#34 = .malformedFrame 0 := by decide

/-- `01…1`: frame `00,03,00,0F` (V8): T = 0, RSV17 = F = 1, C = 0, RSV3 = SCV = SCG = OC = 1. -/
theorem decode_openCircuit :
    decodeReq 0b0100000000000000110000000000001111#34 =
      .openCircuit ⟨0, true, true, 0, true⟩ true true := by decide

/-- `01…10`: frame `00,00,00,06` (V3), SCV set too. -/
theorem decode_shortToGround :
    decodeReq 0b0100000000000000000000000000000110#34 =
      .shortToGround ⟨0, false, false, 0, false⟩ true := by decide

/-- `01…100`: frame `00,00,00,0C` (V6), RSV3 set too. -/
theorem decode_shortToSupply :
    decodeReq 0b0100000000000000000000000000001100#34 =
      .shortToSupply ⟨0, false, false, 0, true⟩ := by decide

/-- `01ttttttttttttttrfccccccccccccr000`: T = 0x3C18, C = 0xF60, frame `F0,60,F6,00` (V24). -/
theorem decode_reading :
    decodeReq 0b0111110000011000001111011000000000#34 =
      .reading ⟨0x3C18, false, false, 0xF60, false⟩ := by decide

/-- The frame of V24 by its bytes gives the REQ word the vector lists. -/
theorem reqWord_V24 :
    (Request.delivered [0xF0, 0x60, 0xF6, 0x00]).reqWord = 0x1F060F600#34 := by decide

/-- Five bytes are not truncated to a frame (V13). -/
theorem reqWord_V13 : (Request.delivered [0, 0, 0, 0, 0]).reqWord = 0#34 := by decide

/-- A word with bit 34 set is no REQ word (log 5). -/
theorem decode_wider : decodeTableWord 40 0x400000000 = none := by decide

/-! ## One step of each operation -/

/-- The outcome a step leaves, none where it stops. -/
def outcomeAfter : Host.Outcome State Fault Refusal → Option DecodeOutcome
  | .next t => t.outcome
  | .fault _ => none
  | .refused _ => none

/-- The result ports a step leaves, none where it stops. -/
def portsAfter : Host.Outcome State Fault Refusal → Option ResultPorts
  | .next t => some t.resultPorts
  | .fault _ => none
  | .refused _ => none

/-- The machine after reset with one interaction presented. -/
def presented (e : HostEvent) : State := { State.reset with inbox := [e] }

/-- W7. -/
theorem step_transportError :
    outcomeAfter (step (presented (.request .transportFailed))) =
      some (.fault .transportError) := by decide
/-- `0x300000000` is TRANSPORT_ERROR (section 2.2). -/
theorem step_transportError_lv :
    portsAfter (step (State.reset.withFetchWord 34 0x300000000)) = some ⟨4, 0, 0⟩ := by decide

/-- V12: the last byte has bit 0 set, and it is not OpenCircuit. -/
theorem step_malformedFrame :
    outcomeAfter (step (presented (.request (.delivered [0, 0, 1])))) =
      some (.fault .malformedFrame) := by decide
/-- V11. -/
theorem step_malformedFrame_ports :
    portsAfter (step (presented (.request (.delivered [])))) = some ⟨5, 0, 0⟩ := by decide

/-- V4. -/
theorem step_openCircuit :
    outcomeAfter (step (presented (.request (.delivered [0, 0, 0, 7])))) =
      some (.fault .openCircuit) := by decide
/-- V10: a valid temperature under the fault is not driven. -/
theorem step_openCircuit_ports :
    portsAfter (step (State.reset.withFetchWord 40 0x119000001)) = some ⟨1, 0, 0⟩ := by decide

/-- V3. -/
theorem step_shortToGround :
    outcomeAfter (step (presented (.request (.delivered [0, 0, 0, 6])))) =
      some (.fault .shortToGround) := by decide
/-- W3. -/
theorem step_shortToGround_ports :
    portsAfter (step (State.reset.withFetchWord 34 0x100000002)) = some ⟨2, 0, 0⟩ := by decide

/-- V6. -/
theorem step_shortToSupply :
    outcomeAfter (step (presented (.request (.delivered [0, 0, 0, 0x0C])))) =
      some (.fault .shortToSupply) := by decide
/-- W4. -/
theorem step_shortToSupply_ports :
    portsAfter (step (State.reset.withFetchWord 34 0x100000004)) = some ⟨3, 0, 0⟩ := by decide

/-- V20: both minima, with F and RSV3 set. -/
theorem step_reading :
    outcomeAfter (step (presented (.request (.delivered [0x80, 0x01, 0x80, 0x08])))) =
      some (.reading (-8192) (-2048)) := by decide
/-- V24: the ports of two negative counts. -/
theorem step_reading_ports :
    portsAfter (step (State.reset.withFetchWord 34 0x1F060F600)) = some ⟨0, 0x3C18, 0xF60⟩ := by
  decide

/-- W5: 400.0 °C. -/
theorem celsius_W5 : celsius (decodeTransaction (.delivered [0x19, 0, 0, 0])) = some (400, 0) := by
  have h : decodeTransaction (.delivered [0x19, 0, 0, 0]) = .reading 1600 0 := by decide
  norm_num [h, celsius, thermocoupleTemp, internalTemp]
/-- V23: 100.25 °C and 23.5 °C. -/
theorem celsius_V23 :
    celsius (decodeTransaction (.delivered [0x06, 0x44, 0x17, 0x80])) =
      some (401 / 4, 47 / 2) := by
  have h : decodeTransaction (.delivered [0x06, 0x44, 0x17, 0x80]) = .reading 401 376 := by decide
  norm_num [h, celsius, thermocoupleTemp, internalTemp]

/-! ## The boundary -/

/-- Two sessions, the first one's exchange in flight. -/
def blocked (e : HostEvent) : State :=
  { State.reset with inbox := [e], sessions := 2, pending := [readerExchange 0] }

/-- Two sessions, both exchanges in flight. -/
def twoBlocked : State :=
  { State.reset with sessions := 2, pending := [readerExchange 0, readerExchange 1] }

/-- P4: a call after a failed `open()` is refused. -/
theorem step_call_without_session :
    step (presented (.call 0)) = .refused .noSession := rfl
/-- P5, variant: two calls on one session are refused. -/
theorem step_call_overlapping : step (blocked (.call 0)) = .refused .overlappingCall := rfl
/-- P5: the answer of one session reaches its caller. -/
theorem step_answer_P5 :
    (match step (blocked (.answer 0 (.delivered [0, 0, 0, 2]))) with
      | .next t => some t.returns
      | _ => none) = some [.decoded (.session 0) (.fault .shortToGround)] := by decide
/-- P1 as interactions (R76). -/
theorem program_P1 :
    (State.withProgram [.openOk, .gettemp 0 (.delivered [0x06, 0x44, 0x17, 0x80])]).inbox =
      [.openOk, .call 0, .answer 0 (.delivered [0x06, 0x44, 0x17, 0x80])] := by decide

/-! ## Witnesses: values that meet all hypotheses of a statement together, one for each clause -/

theorem witness_CanonicalWordsAreTheRequests :
    (Instr.transportError false 0).wellFormed = true ∧
      (Instr.reading ⟨0x3FFF, true, true, 0xFFF, true⟩).wellFormed = true := by decide

theorem witness_RequestPortsGiveTheReqWord : (3 ≤ 3 ∧ 7 < 2 ^ 3) ∧ (3 ≤ 4 ∧ 15 < 2 ^ 4) := by decide

/-- The counts next to 4. -/
theorem witness_DontCarePortsAreIgnored : (3 : Nat) ≠ 4 ∧ (5 : Nat) ≠ 4 := by decide

theorem witness_OnlyWiderWordsAreNoInstruction :
    0x3FFFFFFFF % 2 ^ 40 < 2 ^ 34 ∧ 2 ^ 34 ≤ 0x400000000 % 2 ^ 40 ∧ 34 ≤ 34 := by decide

theorem witness_MalformedFrameOperation :
    ([0, 0, 1] : List Byte).length ≠ 4 ∧ ([0, 0, 0, 0, 0] : List Byte).length ≠ 4 := by decide

/-- Frames that agree in 32 bits, but for those listed, agree. -/
theorem agreeExcept_of_frame {bits : List Nat} {frame frame' : Frame}
    (h : ∀ k < 32, k ∉ bits → frame.getLsbD k = frame'.getLsbD k) :
    agreeExcept bits frame frame' := by
  intro k hk
  by_cases hlt : k < 32
  · exact h k hlt hk
  · rw [BitVec.getLsbD_of_ge _ _ (by omega), BitVec.getLsbD_of_ge _ _ (by omega)]

theorem witness_ReservedBitsIgnored : agreeExcept [17, 3] 0x00020008 0x00000000 :=
  agreeExcept_of_frame (by decide)

theorem witness_FaultFlagNotConsulted :
    agreeExcept [16] 0x00010000 0x00000000 ∧
      ((0x00010002 : Frame).getLsbD 0 = (0xFFFE000A : Frame).getLsbD 0 ∧
        (0x00010002 : Frame).getLsbD 1 = (0xFFFE000A : Frame).getLsbD 1 ∧
        (0x00010002 : Frame).getLsbD 2 = (0xFFFE000A : Frame).getLsbD 2) ∧
      (0x00010001 : Frame).getLsbD 0 = true ∧
      ((0x00010008 : Frame).getLsbD 0 = false ∧ (0x00010008 : Frame).getLsbD 1 = false ∧
        (0x00010008 : Frame).getLsbD 2 = false) :=
  ⟨agreeExcept_of_frame (by decide), by decide, by decide, by decide⟩

theorem witness_FaultDecidedByFiveInputs :
    let r : Request := .delivered [0x19, 0, 0, 1]
    let r' : Request := .delivered [0, 3, 0, 9]
    r.te = r'.te ∧ r.lv = r'.lv ∧ r.frame.getLsbD 0 = r'.frame.getLsbD 0 ∧
      r.frame.getLsbD 1 = r'.frame.getLsbD 1 ∧ r.frame.getLsbD 2 = r'.frame.getLsbD 2 := by decide

theorem witness_FaultOperandsAreBitsOfByteThree :
    byteOc 0x08 = byteOc 0xF0 ∧ byteScg 0x08 = byteScg 0xF0 ∧ byteScv 0x08 = byteScv 0xF0 := by
  decide

theorem witness_ResultPortsShowOneOutcome :
    exec (.reading ⟨1, false, false, 1, false⟩) State.reset =
      .next { State.reset with outcome := some (.reading 1 1) } := rfl

theorem witness_SignExtension : 0 < 1 ∧ 0 < 14 := by decide

theorem witness_ShiftedViewsAreTheFields :
    decodeReq (Request.delivered [0x00, 0x04, 0x00, 0x10]).reqWord =
      .reading ⟨1, false, false, 1, false⟩ := by decide

/-- The extremes of both fields, and of a general width. -/
theorem witness_CountsRoundTrip :
    ((-8192 : Int) ≤ -8192 ∧ (-8192 : Int) ≤ 8191 ∧ (-2048 : Int) ≤ 2047 ∧ (2047 : Int) ≤ 2047) ∧
      (0 < 14 ∧ (-(2 ^ (14 - 1)) : Int) ≤ -8192 ∧ (-8192 : Int) ≤ 2 ^ (14 - 1) - 1) := by decide

theorem witness_TemperatureLanesAreIndependent :
    let frame : Frame := 0x00040010
    let frame' : Frame := 0x00040FF8
    let frame'' : Frame := 0xFFFC0018
    frame.extractLsb' 0 3 = 0 ∧ frame'.extractLsb' 0 3 = 0 ∧ frame''.extractLsb' 0 3 = 0 ∧
      (∀ k < 32, 18 ≤ k → frame.getLsbD k = frame'.getLsbD k) ∧
      (∀ k < 32, 4 ≤ k → k ≤ 15 → frame.getLsbD k = frame''.getLsbD k) := by decide

theorem witness_ExactlyOneOutcome :
    (presented (.request (.delivered []))).inbox = [.request (.delivered [])] ∧
      HostEvent.transactionFor (.request (.delivered [])) = some .ports ∧
      HostEvent.dutiful (presented (.request (.delivered []))) (.request (.delivered [])) = true ∧
      HostEvent.transactionFor (.answer 0 .transportFailed) = some (.session 0) ∧
      HostEvent.dutiful (blocked (.answer 0 .transportFailed)) (.answer 0 .transportFailed) = true := by
  decide

/-- A request at the block's input and a session's answer, each in the place of the other. -/
theorem witness_EqualRequestsEqualOutcomes :
    let e : HostEvent := .word 0x200000000
    let e' : HostEvent := .answer 0 .transportFailed
    (presented e).inbox = [e] ∧ (blocked e').inbox = [e'] ∧
      e.instr = some (.transportError false 0) ∧ e'.instr = some (.transportError false 0) ∧
      e.transactionFor = some .ports ∧ e'.transactionFor = some (.session 0) ∧
      e.dutiful (presented e) = true ∧
      e'.dutiful (blocked e') = true := by decide

theorem witness_StepRunsTheDecodedInstruction :
    ((presented (.word 0x3FFFFFFFF)).inbox = [.word 0x3FFFFFFFF] ∧
      decodeWord 0x3FFFFFFFF = .ok (.transportError true 0xFFFFFFFF)) ∧
    ((presented (.request (.delivered []))).inbox = [.request (.delivered [])] ∧
      decodeReq (Request.delivered []).reqWord = .malformedFrame 0) ∧
    ((presented (.ports ⟨false, 4, 1⟩)).inbox = [.ports ⟨false, 4, 1⟩] ∧
      decodeReq (RequestPorts.mk false 4 1).reqWord =
        .openCircuit ⟨0, false, false, 0, false⟩ false false) :=
  ⟨⟨rfl, rfl⟩, ⟨rfl, by decide⟩, ⟨rfl, by decide⟩⟩

theorem witness_AnswerRunsTheDecodedInstruction :
    (blocked (.answer 0 .transportFailed)).inbox = [.answer 0 .transportFailed] ∧
      (blocked (.answer 0 .transportFailed)).busy 0 = true := by decide

theorem witness_FetchWordIsRunNext :
    decodeTableWord 34 0x100000002 = some (.shortToGround ⟨0, false, false, 0, false⟩ false) := by
  decide

theorem witness_OpenGivesASessionOrTransportError :
    (presented .openOk).inbox = [.openOk] ∧ (presented .openFailed).inbox = [.openFailed] := by
  decide

/-- The last session of two, the other one's exchange in flight. -/
theorem witness_CallIssuesTheReadersExchange :
    (blocked (.call 1)).inbox = [.call 1] ∧ 1 < (blocked (.call 1)).sessions ∧
      ∀ x ∈ (blocked (.call 1)).pending, x.session ≠ 1 := by decide

/-- Clause by clause, at the boundary: the first session that does not exist, the last that does,
the first width that does not fit. -/
theorem witness_BrokenDutiesAreRefusedByName :
    ((blocked (.call 2)).inbox = [.call 2] ∧ (blocked (.call 2)).sessions ≤ 2) ∧
    ((blocked (.call 0)).inbox = [.call 0] ∧ 0 < (blocked (.call 0)).sessions ∧
      ∃ x ∈ (blocked (.call 0)).pending, x.session = 0) ∧
    ((blocked (.answer 1 .transportFailed)).inbox = [.answer 1 .transportFailed] ∧
      ∀ x ∈ (blocked (.answer 1 .transportFailed)).pending, x.session ≠ 1) ∧
    ((presented (.word 0x400000000)).inbox = [.word 0x400000000] ∧ 2 ^ 34 ≤ 0x400000000) := by
  decide

/-- A blocked session with nothing presented, and one with another interaction presented. -/
theorem witness_BlockedCallWaitsForItsAnswer :
    (twoBlocked.busy 0 = true ∧ twoBlocked.inbox = []) ∧
    ((blocked .openFailed).busy 0 = true ∧
      step (blocked .openFailed) = .next ((blocked .openFailed).take []).failOpen ∧
      ∀ r rest, (blocked .openFailed).inbox ≠ .answer 0 r :: rest) :=
  ⟨by decide, by decide, rfl, by simp [blocked]⟩

/-- One call on the last session of two, another session's exchange in flight. -/
theorem witness_CallsReturnInOrder :
    let s : State := { blocked (.call 1) with inbox := [.call 1, .answer 1 .transportFailed] }
    1 < s.sessions ∧ (∀ x ∈ s.pending, x.session ≠ 1) ∧
      s.inbox = [Request.transportFailed].flatMap
        (fun r => [HostEvent.call 1, HostEvent.answer 1 r]) ++ [] := by decide

theorem witness_SessionsDoNotInterfere :
    (0 : Nat) ≠ 1 ∧ twoBlocked.busy 0 = true ∧ twoBlocked.busy 1 = true := by decide

theorem witness_IdleStepOnlyCounts : State.reset.inbox = [] := rfl

/-- A state that meets the invariant with an exchange in flight and an outcome at the extremes. -/
theorem witness_StepKeepsTheInvariant :
    let s : State := { blocked (.answer 0 .transportFailed) with
      outcome := some (.reading (-8192) 2047), returns := [.opened 0, .opened 1] }
    s.Inv ∧ ∃ t, step s = .next t :=
  ⟨⟨by simp [outcomeInRange], by decide, by decide, by decide⟩, _, rfl⟩

end Sys2Proof.Tests
end

