-- ==== Sys2Proof/Proofs/SignExtension.lean ====
section
/-! PROOF. Sign extension (`00_scope.md` R12): its defining rule and range at every width, and its
agreement with the arithmetic shift of the 16-bit views. -/

namespace Sys2Proof.Machine

/-- R12's range, at every width above 0. -/
theorem sext_bounds {N : Nat} (v : BitVec N) :
    -(2 ^ (N - 1) : Int) ≤ sext v ∧ sext v ≤ 2 ^ (N - 1) - 1 := by
  rw [sext_eq_toInt]
  exact ⟨BitVec.le_toInt v, Int.le_sub_one_of_lt BitVec.toInt_lt⟩

/-- Shifting right arithmetically is taking the field above the shifted-out bits and widening it
again by copies of its sign bit, which is the sign bit of the whole word. -/
theorem sshiftRight_eq_signExtend_field {w k : Nat} (v : BitVec w) (hk : k < w) :
    v.sshiftRight k = ((v >>> k).setWidth (w - k)).signExtend w := by
  have hmsb : ((v >>> k).setWidth (w - k)).msb = v.msb := by
    simp [BitVec.msb_eq_getLsbD_last, show k + (w - k - 1) = w - 1 by omega,
      show w - k - 1 < w - k by omega]
  ext i hi
  simp only [BitVec.getElem_sshiftRight, BitVec.getElem_signExtend, hmsb]
  by_cases h : i < w - k
  · have h' : k + i < w := by omega
    simp [h, h', BitVec.getLsbD_eq_getElem]
  · have h' : ¬ k + i < w := by omega
    simp [h, h']

/-- The arithmetic shift of a word has the value of the field it leaves, sign-extended. -/
theorem sext_shifted_field {w k : Nat} (v : BitVec w) (hk : k < w) :
    sext ((v >>> k).setWidth (w - k)) = (v.sshiftRight k).toInt := by
  rw [sext_eq_toInt, sshiftRight_eq_signExtend_field v hk,
    BitVec.toInt_signExtend_of_le (Nat.sub_le w k)]

theorem sext_fieldT (hi : BitVec 16) : sext (fieldT hi) = (hi.sshiftRight 2).toInt :=
  sext_shifted_field (k := 2) hi (by decide)

theorem sext_fieldC (lo : BitVec 16) : sext (fieldC lo) = (lo.sshiftRight 4).toInt :=
  sext_shifted_field (k := 4) lo (by decide)

/-- Settles O25: the rule is `sext`'s definition, the range is two's complement's, the arithmetic
shifts are `sext_fieldT` and `sext_fieldC`, and a logical shift already loses the sign of the most
negative views, `0x8000`. -/
theorem signExtension : Obligations.SignExtension := by
  refine ⟨fun N v _ => ⟨rfl, sext_bounds v⟩, fun hi lo => ⟨sext_fieldT hi, sext_fieldC lo⟩,
    0x8000, 0x8000, ?_⟩
  decide

end Sys2Proof.Machine
end

