-- ==== Sys2Proof/Proofs/FrameOutcome.lean ====
section
/-! PROOF. The outcome of a delivery (`30_encoding.md` R62, R63, R69, R74): four bytes end in the
outcome of their frame, every other count in MalformedFrame, and a frame's outcome reads its two
temperature fields and its three fault bits and nothing else. -/

namespace Sys2Proof.Machine

/-! ## The outcome of a frame -/

/-- The outcome of a frame: the fault its three fault bits name, else the reading of both fields. -/
def frameOutcome (frame : Frame) : DecodeOutcome :=
  match wiringFault (frameScv frame) (frameScg frame) (frameOc frame) with
  | some k => .fault k
  | none => .reading (tcCount (frameT frame)) (cjCount (frameC frame))

@[simp] theorem wiringFault_oc (scv scg : Bool) : wiringFault scv scg true = some .openCircuit := by
  cases scv <;> cases scg <;> rfl

@[simp] theorem wiringFault_scg (scv : Bool) :
    wiringFault scv true false = some .shortToGround := by
  cases scv <;> rfl

/-- MalformedFrame is no wiring fault. -/
theorem wiringFault_ne_malformedFrame (scv scg oc : Bool) :
    wiringFault scv scg oc ≠ some .malformedFrame := by
  cases scv <;> cases scg <;> cases oc <;> decide

/-- The fault of a frame's outcome is the wiring fault of its three fault bits. -/
theorem faultOf_frameOutcome (frame : Frame) :
    faultOf (frameOutcome frame) =
      wiringFault (frameScv frame) (frameScg frame) (frameOc frame) := by
  rw [frameOutcome]
  cases wiringFault (frameScv frame) (frameScg frame) (frameOc frame) with
  | some k => rfl
  | none => rfl

/-- Equal fault bits give equal faults. -/
theorem faultOf_frameOutcome_congr {frame frame' : Frame} (hoc : frameOc frame = frameOc frame')
    (hscg : frameScg frame = frameScg frame') (hscv : frameScv frame = frameScv frame') :
    faultOf (frameOutcome frame) = faultOf (frameOutcome frame') := by
  rw [faultOf_frameOutcome, faultOf_frameOutcome, hoc, hscg, hscv]

theorem frameOutcome_ne_malformedFrame (frame : Frame) :
    frameOutcome frame ≠ .fault .malformedFrame := by
  intro h
  have hfault := faultOf_frameOutcome frame
  rw [h] at hfault
  exact wiringFault_ne_malformedFrame _ _ _ hfault.symm

theorem frameOutcome_of_oc {frame : Frame} (hoc : frameOc frame = true) :
    frameOutcome frame = .fault .openCircuit := by
  rw [frameOutcome, hoc, wiringFault_oc]

theorem frameOutcome_of_clear {frame : Frame} (hoc : frameOc frame = false)
    (hscg : frameScg frame = false) (hscv : frameScv frame = false) :
    frameOutcome frame = .reading (tcCount (frameT frame)) (cjCount (frameC frame)) := by
  rw [frameOutcome, hoc, hscg, hscv]
  rfl

/-! ## Bits 17, 16 and 3 are not read -/

/-- Frames that agree outside some bits agree outside any more. -/
theorem agreeExcept_mono {bits bits' : List Nat} {frame frame' : Frame} (hsub : bits ⊆ bits')
    (h : agreeExcept bits frame frame') : agreeExcept bits' frame frame' :=
  fun k hk => h k fun hmem => hk (hsub hmem)

/-- Frames that agree in every bit of a field have that field in common. -/
theorem extractLsb'_congr {start len : Nat} {frame frame' : Frame}
    (h : ∀ k, start ≤ k → k < start + len → frame.getLsbD k = frame'.getLsbD k) :
    frame.extractLsb' start len = frame'.extractLsb' start len := by
  apply BitVec.eq_of_getLsbD_eq
  intro i hi
  rw [BitVec.getLsbD_extractLsb', BitVec.getLsbD_extractLsb', h (start + i) (by omega) (by omega)]

/-- The reserved bits and the fault flag stand outside both temperature fields and apart from the
three fault bits, so no outcome depends on them. -/
theorem frameOutcome_eq_of_agreeExcept {frame frame' : Frame}
    (h : agreeExcept [17, 16, 3] frame frame') : frameOutcome frame = frameOutcome frame' := by
  have hbit : ∀ k, k ≠ 17 → k ≠ 16 → k ≠ 3 → frame.getLsbD k = frame'.getLsbD k :=
    fun k h17 h16 h3 => h k (by simp [h17, h16, h3])
  have ht : frameT frame = frameT frame' :=
    extractLsb'_congr fun k hlo _ => hbit k (by omega) (by omega) (by omega)
  have hc : frameC frame = frameC frame' :=
    extractLsb'_congr fun k hlo hhi => hbit k (by omega) (by omega) (by omega)
  have hscv : frameScv frame = frameScv frame' := hbit 2 (by decide) (by decide) (by decide)
  have hscg : frameScg frame = frameScg frame' := hbit 1 (by decide) (by decide) (by decide)
  have hoc : frameOc frame = frameOc frame' := hbit 0 (by decide) (by decide) (by decide)
  rw [frameOutcome, frameOutcome, ht, hc, hscv, hscg, hoc]

/-! ## What a delivery ends in -/

/-- The instruction a frame decodes to drives the frame's outcome: the decoder's tests and
`wiringFault` take the fault bits in the same order (R107). -/
theorem exec_decodeFrame (frame : Frame) (s : State) :
    exec (decodeFrame frame) s = .next (s.drive (frameOutcome frame)) := by
  rw [decodeFrame, frameOutcome]
  cases frameOc frame with
  | true => rw [wiringFault_oc]; rfl
  | false =>
    cases frameScg frame with
    | true => rw [wiringFault_scg]; rfl
    | false =>
      cases frameScv frame with
      | true => rfl
      | false => rfl

/-- Four bytes end in the outcome of their frame. -/
theorem exec_delivered_four (b0 b1 b2 b3 : Byte) (s : State) :
    exec (decodeReq (Request.delivered [b0, b1, b2, b3]).reqWord) s =
      .next (s.drive (frameOutcome (frameOfBytes b0 b1 b2 b3))) := by
  rw [reqWord_delivered, decodeReq_packReq]
  exact exec_decodeFrame _ s

/-- The delivery of a frame ends in the frame's outcome. -/
theorem exec_requestOfFrame (frame : Frame) (s : State) :
    exec (decodeReq (requestOfFrame frame).reqWord) s = .next (s.drive (frameOutcome frame)) := by
  rw [requestOfFrame, exec_delivered_four, frameOfBytes_extract]

/-- Any count of bytes but four ends in MalformedFrame (R74). -/
theorem exec_delivered_of_length_ne_four {bytes : List Byte} (h : bytes.length ≠ 4) (s : State) :
    exec (decodeReq (Request.delivered bytes).reqWord) s =
      .next (s.drive (.fault .malformedFrame)) := by
  have hlv : (Request.delivered bytes).lv = false := beq_false_of_ne h
  rw [decodeReq_reqWord, hlv]
  rfl

/-- Frames that agree outside bits 17, 16 and 3 end in one outcome. -/
theorem exec_requestOfFrame_congr {frame frame' : Frame} (h : agreeExcept [17, 16, 3] frame frame')
    (s : State) :
    ∃ o, exec (decodeReq (requestOfFrame frame).reqWord) s = .next { s with outcome := some o } ∧
      exec (decodeReq (requestOfFrame frame').reqWord) s = .next { s with outcome := some o } :=
  ⟨_, exec_requestOfFrame frame s, by
    rw [frameOutcome_eq_of_agreeExcept h]; exact exec_requestOfFrame frame' s⟩

/-! ## Fault bits of a frame and of its byte 3 -/

@[simp] theorem frameOc_frameOfBytes (b0 b1 b2 b3 : Byte) :
    frameOc (frameOfBytes b0 b1 b2 b3) = byteOc b3 :=
  getLsbD_frameOfBytes b0 b1 b2 b3 0

@[simp] theorem frameScg_frameOfBytes (b0 b1 b2 b3 : Byte) :
    frameScg (frameOfBytes b0 b1 b2 b3) = byteScg b3 :=
  getLsbD_frameOfBytes b0 b1 b2 b3 1

@[simp] theorem frameScv_frameOfBytes (b0 b1 b2 b3 : Byte) :
    frameScv (frameOfBytes b0 b1 b2 b3) = byteScv b3 :=
  getLsbD_frameOfBytes b0 b1 b2 b3 2

/-! ## The obligations -/

/-- Settles O18: by the count; four bytes end in a frame's outcome, which is a reading or a wiring
fault. -/
theorem onlyFourBytesAreAFrame : Obligations.OnlyFourBytesAreAFrame := by
  intro bytes
  by_cases h : bytes.length = 4
  · obtain ⟨b0, b1, b2, b3, rfl⟩ := List.length_eq_four.mp h
    exact ⟨_, exec_delivered_four b0 b1 b2 b3,
      iff_of_false (not_not_intro h) (frameOutcome_ne_malformedFrame _)⟩
  · exact ⟨_, exec_delivered_of_length_ne_four h, iff_of_true h rfl⟩

/-- Settles O19: bits 17 and 3 are among the bits no outcome reads. -/
theorem reservedBitsIgnored : Obligations.ReservedBitsIgnored :=
  fun _ _ s h => exec_requestOfFrame_congr (agreeExcept_mono (by decide) h) s

/-- Settles O20: bit 16 is among the bits no outcome reads, and the fault of a frame's outcome is
the wiring fault of bits 0 to 2. -/
theorem faultFlagNotConsulted : Obligations.FaultFlagNotConsulted := by
  refine ⟨fun frame frame' s h => exec_requestOfFrame_congr (agreeExcept_mono (by decide) h) s,
    fun frame frame' s hoc hscg hscv => ?_, fun frame s hoc => ?_,
    fun frame s hoc hscg hscv => ?_, by decide, fun s => ?_⟩
  · exact ⟨_, _, exec_requestOfFrame frame s, exec_requestOfFrame frame' s,
      faultOf_frameOutcome_congr hoc hscg hscv⟩
  · rw [exec_requestOfFrame, frameOutcome_of_oc hoc]
    rfl
  · rw [exec_requestOfFrame, frameOutcome_of_clear hoc hscg hscv]
    exact ⟨_, _, rfl⟩
  · have hword : frameOutcome (frameOfBytes 0xFF 0xFF 0xFF 0xF0) = .reading (-1) (-1) := by decide
    rw [exec_delivered_four, hword]
    rfl

/-- Settles O22: the fault bits of a frame are those of its byte 3, and the fault of a frame's
outcome is the wiring fault of these three. -/
theorem faultOperandsAreBitsOfByteThree : Obligations.FaultOperandsAreBitsOfByteThree := by
  refine ⟨fun b0 b1 b2 b3 => ?_, fun b0 b1 b2 b3 b0' b1' b2' b3' s hoc hscg hscv => ?_⟩
  · exact ⟨rfl, frameOc_frameOfBytes b0 b1 b2 b3, rfl, frameScg_frameOfBytes b0 b1 b2 b3,
      rfl, frameScv_frameOfBytes b0 b1 b2 b3⟩
  · exact ⟨_, _, exec_delivered_four b0 b1 b2 b3 s, exec_delivered_four b0' b1' b2' b3' s,
      faultOf_frameOutcome_congr (by simpa using hoc) (by simpa using hscg) (by simpa using hscv)⟩

end Sys2Proof.Machine
end

