-- ==== Sys2Proof/Proofs/FaultDecision.lean ====
section
/-! PROOF. What decides the fault of a transaction (`40_fault_priority.md` R107, R110): the first
set fault bit of a frame, and, over all requests, five inputs and nothing else. -/

namespace Sys2Proof.Machine

/-! ## The first set fault bit (R107) -/

/-- The third row of R107: OC clear and SCG set, whatever SCV holds. -/
theorem frameOutcome_of_scg {frame : Frame} (hoc : frameOc frame = false)
    (hscg : frameScg frame = true) : frameOutcome frame = .fault .shortToGround := by
  rw [frameOutcome, hoc, hscg, wiringFault_scg]

/-- The last row of R107: SCV the only fault bit set. -/
theorem frameOutcome_of_scv {frame : Frame} (hoc : frameOc frame = false)
    (hscg : frameScg frame = false) (hscv : frameScv frame = true) :
    frameOutcome frame = .fault .shortToSupply := by
  rw [frameOutcome, hoc, hscg, hscv]
  rfl

/-- R107's table as a chain of tests, one row a test. -/
theorem frameOutcome_eq_ite (frame : Frame) :
    frameOutcome frame =
      if frameOc frame then .fault .openCircuit
      else if frameScg frame then .fault .shortToGround
      else if frameScv frame then .fault .shortToSupply
      else .reading (tcCount (frameT frame)) (cjCount (frameC frame)) := by
  cases hoc : frameOc frame with
  | true => exact frameOutcome_of_oc hoc
  | false =>
    cases hscg : frameScg frame with
    | true => exact frameOutcome_of_scg hoc hscg
    | false =>
      cases hscv : frameScv frame with
      | true => exact frameOutcome_of_scv hoc hscg hscv
      | false => exact frameOutcome_of_clear hoc hscg hscv

/-! ## The five inputs (R110) -/

/-- The fault of a transaction as a function of R110's inputs: the transport error, the count being
four, and the three fault bits. -/
def faultOfInputs (te lv scv scg oc : Bool) : Option FaultKind :=
  if te then some .transportError
  else if lv then wiringFault scv scg oc
  else some .malformedFrame

/-- Every request ends in one outcome, and its fault is read off the five inputs. -/
theorem exec_reqWord_faultOfInputs (r : Request) (s : State) :
    ∃ o, exec (decodeReq r.reqWord) s = .next (s.drive o) ∧
      faultOf o =
        faultOfInputs r.te r.lv (frameScv r.frame) (frameScg r.frame) (frameOc r.frame) := by
  rw [decodeReq_reqWord]
  cases r.te with
  | true => exact ⟨.fault .transportError, rfl, rfl⟩
  | false =>
    cases r.lv with
    | true => exact ⟨frameOutcome r.frame, exec_decodeFrame r.frame s, faultOf_frameOutcome r.frame⟩
    | false => exact ⟨.fault .malformedFrame, rfl, rfl⟩

/-! ## The obligations -/

/-- Settles O17: a delivered frame ends in its frame's outcome, which is R107's table. -/
theorem faultBitPriority : Obligations.FaultBitPriority := by
  intro frame s
  rw [exec_requestOfFrame, frameOutcome_eq_ite]
  rfl

/-- Settles O21: the fault of either request is the same function of five inputs that are equal. -/
theorem faultDecidedByFiveInputs : Obligations.FaultDecidedByFiveInputs := by
  intro r r' s hte hlv hoc hscg hscv
  obtain ⟨o, hexec, hfault⟩ := exec_reqWord_faultOfInputs r s
  obtain ⟨o', hexec', hfault'⟩ := exec_reqWord_faultOfInputs r' s
  have hinputs : faultOf o = faultOf o' := by
    simp only [hfault, hfault', frameOc, frameScg, frameScv, hte, hlv, hoc, hscg, hscv]
  exact ⟨o, o', hexec, hexec', hinputs⟩

end Sys2Proof.Machine
end

