-- ==== Sys2Proof/Proofs/ReadingCounts.lean ====
section
/-! PROOF. What a reading carries (`41_temperature_extract.md` R122, R124, R125, R126): both counts
by the sign-bit rule, and their exact temperatures. -/

namespace Sys2Proof.Machine

/-- READING drives the counts of its own two fields, and changes nothing else. -/
theorem exec_reading (body : FrameBody) (s : State) :
    exec (.reading body) s = .next (s.drive (.reading (tcCount body.t) (cjCount body.c))) := rfl

/-! ## The counts (R122, R124, R125) -/

/-- Sign extension loses no field: only the zero field has the count 0. -/
theorem sext_eq_zero_iff {N : Nat} (v : BitVec N) : sext v = 0 ↔ v = 0 := by
  rw [sext_eq_toInt, ← BitVec.toInt_inj, BitVec.ofNat_eq_ofNat, BitVec.toInt_zero]

theorem tcCount_eq_ite (t : BitVec 14) :
    tcCount t = if t.getLsbD 13 then (t.toNat : Int) - 16384 else t.toNat := by
  norm_num [tcCount, sext]

theorem cjCount_eq_ite (c : BitVec 12) :
    cjCount c = if c.getLsbD 11 then (c.toNat : Int) - 4096 else c.toNat := by
  norm_num [cjCount, sext]

/-! ## The temperatures (R126) -/

theorem thermocoupleTemp_eq_decimal (tc : Int) : thermocoupleTemp tc = tc * (0.25 : Rat) := by
  norm_num [thermocoupleTemp]

theorem internalTemp_eq_decimal (cj : Int) : internalTemp cj = cj * (0.0625 : Rat) := by
  norm_num [internalTemp]

theorem thermocoupleTemp_mul_four (tc : Int) : thermocoupleTemp tc * 4 = tc := by
  rw [thermocoupleTemp, one_div, inv_mul_cancel_right₀ four_ne_zero]

theorem internalTemp_mul_sixteen (cj : Int) : internalTemp cj * 16 = cj := by
  rw [internalTemp, one_div, inv_mul_cancel_right₀ (by decide)]

/-! ## The obligations -/

/-- Settles O26: both counts follow the sign-bit rule and stay in range, and the cold-junction count
is 0 for no field but 0. -/
theorem readingReturnsBothSignedCounts : Obligations.ReadingReturnsBothSignedCounts := by
  intro body s
  obtain ⟨htc_ge, htc_le⟩ := tcCount_bounds body.t
  obtain ⟨hcj_ge, hcj_le⟩ := cjCount_bounds body.c
  have hcj_ne : body.c ≠ 0 → cjCount body.c ≠ 0 := mt (sext_eq_zero_iff body.c).mp
  exact ⟨_, _, exec_reading body s, tcCount_eq_ite body.t, htc_ge, htc_le,
    cjCount_eq_ite body.c, hcj_ge, hcj_le, hcj_ne⟩

/-- Settles O28: a reading's temperatures are those of its counts, each written as a fraction, as a
decimal, and multiplied back. -/
theorem temperaturesAreExact : Obligations.TemperaturesAreExact := by
  intro body s
  exact ⟨_, _, _, _, exec_reading body s, rfl, rfl, rfl,
    thermocoupleTemp_eq_decimal _, internalTemp_eq_decimal _,
    thermocoupleTemp_mul_four _, internalTemp_mul_sixteen _⟩

end Sys2Proof.Machine
end

