-- ==== Sys2Proof/Proofs/WiringFaults.lean ====
section
/-! PROOF. The three wiring faults are kept distinct (`60_exceptions.md` R161). -/

namespace Sys2Proof.Machine

/-! ## The fault each wiring operation drives (R103, R104, R105) -/

theorem exec_openCircuit (body : FrameBody) (scv scg : Bool) (s : State) :
    exec (.openCircuit body scv scg) s = .next (s.drive (.fault .openCircuit)) := rfl

theorem exec_shortToGround (body : FrameBody) (scv : Bool) (s : State) :
    exec (.shortToGround body scv) s = .next (s.drive (.fault .shortToGround)) := rfl

theorem exec_shortToSupply (body : FrameBody) (s : State) :
    exec (.shortToSupply body) s = .next (s.drive (.fault .shortToSupply)) := rfl

/-- Different kinds of fault leave different outcomes: no two are merged into one. -/
theorem State.drive_fault_outcome_ne {k k' : FaultKind} (h : k ≠ k') (s : State) :
    (s.drive (.fault k)).outcome ≠ (s.drive (.fault k')).outcome := by
  simpa using h

/-! ## The obligation -/

/-- Settles O23: each of the three operations drives the fault of its own kind, and the three kinds
are different. -/
theorem wiringFaultsAreDistinct : Obligations.WiringFaultsAreDistinct := by
  intro b b' b'' scv scg scv' s
  exact ⟨_, _, _, exec_openCircuit b scv scg s, exec_shortToGround b' scv' s,
    exec_shortToSupply b'' s, State.drive_fault_outcome_ne (by decide) s,
    State.drive_fault_outcome_ne (by decide) s, State.drive_fault_outcome_ne (by decide) s⟩

end Sys2Proof.Machine
end

