-- ==== Sys2Proof/Proofs/EncodeDecode.lean ====
section
/-! PROOF. The decoder and the encoder undo each other (`30_encoding.md` R61, R65, R70): a frame is
rebuilt from its fields, a REQ word from its parts, and the decoder's tests are the patterns the
encoder writes. -/

namespace Sys2Proof

/-! ## A frame and its fields, a word and its parts -/

/-- A frame is the encoding of its own fields: together they hold all 32 bits. -/
@[simp] theorem encodeFrame_fields (frame : Frame) :
    encodeFrame (frameBody frame) (frameScv frame) (frameScg frame) (frameOc frame) = frame := by
  apply BitVec.eq_of_getLsbD_eq
  intro k hk
  simp only [getLsbD_encodeFrame, frameBody, frameT, frameRsv17, frameF, frameC, frameRsv3,
    frameScv, frameScg, frameOc, BitVec.getLsbD_extractLsb']
  interval_cases k <;> rfl

/-- A REQ word is its bits 33 and 32 and its frame. -/
theorem packReq_parts (w : ReqWord) :
    packReq (w.getLsbD 33) (w.getLsbD 32) (reqFrame w) = w := by
  apply BitVec.eq_of_getLsbD_eq
  intro k hk
  simp only [getLsbD_packReq, reqFrame, BitVec.getLsbD_extractLsb']
  interval_cases k <;> rfl

/-! ## The two directions for a frame -/

/-- What the decoder does with a frame given by its fields. -/
theorem decodeFrame_encodeFrame (body : FrameBody) (scv scg oc : Bool) :
    decodeFrame (encodeFrame body scv scg oc) =
      if oc then .openCircuit body scv scg
      else if scg then .shortToGround body scv
      else if scv then .shortToSupply body
      else .reading body := by
  simp only [decodeFrame, frameBody_encodeFrame, frameOc_encodeFrame, frameScg_encodeFrame,
    frameScv_encodeFrame]

/-- The word of the instruction a frame decodes to is the canonical word of that frame. -/
theorem encode_decodeFrame (frame : Frame) :
    encode (decodeFrame frame) = packReq false true frame := by
  have hfields := encodeFrame_fields frame
  rw [decodeFrame]
  cases hoc : frameOc frame with
  | true =>
    rw [hoc] at hfields
    exact congrArg (packReq false true) hfields
  | false =>
    cases hscg : frameScg frame with
    | true =>
      rw [hoc, hscg] at hfields
      exact congrArg (packReq false true) hfields
    | false =>
      cases hscv : frameScv frame <;> rw [hoc, hscg, hscv] at hfields <;>
        exact congrArg (packReq false true) hfields

/-! ## The obligations -/

/-- Settles O2: an instruction's word is packed from its bits, so the decoder finds the pattern of
its row and, below it, the frame's fields as they were encoded. -/
theorem decodeInvertsEncode : Obligations.DecodeInvertsEncode := by
  intro i
  cases i with
  | transportError lv data => exact decodeReq_packReq true lv data
  | malformedFrame data => exact decodeReq_packReq false false data
  | openCircuit body scv scg =>
    rw [encode, decodeReq_packReq]
    exact decodeFrame_encodeFrame body scv scg true
  | shortToGround body scv =>
    rw [encode, decodeReq_packReq]
    exact decodeFrame_encodeFrame body scv true false
  | shortToSupply body =>
    rw [encode, decodeReq_packReq]
    exact decodeFrame_encodeFrame body true false false
  | reading body =>
    rw [encode, decodeReq_packReq]
    exact decodeFrame_encodeFrame body false false false

/-- Settles O3: by the decoder's tests of bits 33 and 32; what it reads in each case are the parts
the word is packed from. -/
theorem encodeInvertsDecode : Obligations.EncodeInvertsDecode := by
  intro w
  have hparts := packReq_parts w
  rw [decodeReq]
  cases hte : w.getLsbD 33 with
  | true => rwa [hte] at hparts
  | false =>
    rw [hte] at hparts
    cases hlv : w.getLsbD 32 with
    | true =>
      rw [hlv] at hparts
      exact (encode_decodeFrame (reqFrame w)).trans hparts
    | false => rwa [hlv] at hparts

/-- Settles O1: eight fixed words, decoded. -/
theorem specWordsDecode : Obligations.SpecWordsDecode := by
  unfold Obligations.SpecWordsDecode
  decide

/-- Bits decode to their REQ word's instruction when they fit in 34 bits, else not at all. -/
theorem decodeTableWord_eq_ite (nbits w : Nat) :
    decodeTableWord nbits w =
      if w % 2 ^ nbits < 2 ^ 34 then some (decodeReq (BitVec.ofNat 34 (w % 2 ^ nbits)))
      else none := by
  rw [decodeTableWord, decodeWord, tableBits]
  by_cases h : w % 2 ^ nbits < 2 ^ 34
  · rw [if_pos h, if_pos h]
  · rw [if_neg h, if_neg h]

/-- Settles O10: by the width test; a row of at most 34 bits always passes it. -/
theorem onlyWiderWordsAreNoInstruction : Obligations.OnlyWiderWordsAreNoInstruction := by
  intro nbits w
  rw [decodeTableWord_eq_ite]
  refine ⟨fun h => if_pos h, fun h => if_neg (Nat.not_lt.mpr h), fun hbits => ?_⟩
  have hfits : w % 2 ^ nbits < 2 ^ 34 :=
    (Nat.mod_lt w (Nat.two_pow_pos nbits)).trans_le (Nat.pow_le_pow_right Nat.two_pos hbits)
  rw [if_pos hfits]
  rfl

end Sys2Proof
end

