-- ==== Sys2Proof/Proofs/StepInvariant.lean ====
section
/-! PROOF. The invariant of the machine: it holds after reset (`70_reset_and_hazards.md` R180,
R181), every operation the boundary uses keeps it, and so every step does. -/

namespace Sys2Proof.Machine

/-! ## Each operation of the boundary keeps the invariant -/

theorem State.Inv.tick {s : State} (h : s.Inv) : s.tick.Inv :=
  ⟨h.outcome_range, h.returns_ok, h.pending_reader, h.pending_once⟩

theorem State.Inv.take {s : State} (h : s.Inv) (rest : List HostEvent) : (s.take rest).Inv :=
  ⟨h.outcome_range, h.returns_ok, h.pending_reader, h.pending_once⟩

theorem State.Inv.drive {s : State} (h : s.Inv) {o : DecodeOutcome} (ho : outcomeInRange o = true) :
    (s.drive o).Inv :=
  ⟨fun o' ho' => by obtain rfl := Option.some.inj ho'; exact ho,
    h.returns_ok, h.pending_reader, h.pending_once⟩

theorem State.Inv.handBack {s : State} (h : s.Inv) {r : Return}
    (hr : returnOk s.sessions r = true) : (s.handBack r).Inv := by
  refine ⟨h.outcome_range, fun r' hr' => ?_, h.pending_reader, h.pending_once⟩
  rw [State.handBack_returns, List.mem_append, List.mem_singleton] at hr'
  obtain hold | rfl := hr'
  · exact h.returns_ok r' hold
  · exact hr

/-- Opening more sessions makes no return wrong. -/
theorem returnOk_mono {m n : Nat} (hmn : m ≤ n) {r : Return} (h : returnOk m r = true) :
    returnOk n r = true := by
  cases r with
  | opened session =>
    simp only [returnOk, decide_eq_true_eq] at h ⊢
    omega
  | openFails k => exact h
  | decoded c o => exact h

theorem State.Inv.openSession {s : State} (h : s.Inv) : s.openSession.Inv := by
  have hopen : State.Inv { s with sessions := s.sessions + 1 } :=
    ⟨h.outcome_range, fun r hr => returnOk_mono (Nat.le_succ _) (h.returns_ok r hr),
      fun x hx => (h.pending_reader x hx).imp_right Nat.lt_succ_of_lt, h.pending_once⟩
  exact hopen.handBack (by simp [returnOk])

theorem State.Inv.failOpen {s : State} (h : s.Inv) : s.failOpen.Inv := h.handBack rfl

/-- A call keeps the invariant where it is not refused: on an open session with no exchange of its
own in flight (R148, R183). -/
theorem State.Inv.issue {s : State} (h : s.Inv) {n : Nat} (hopen : s.hasSession n = true)
    (hfree : s.busy n = false) : (s.issue n).Inv := by
  refine ⟨h.outcome_range, h.returns_ok, fun x hx => ?_, ?_⟩
  · rw [State.issue_pending, List.mem_append, List.mem_singleton] at hx
    obtain hold | rfl := hx
    · exact h.pending_reader x hold
    · exact ⟨rfl, (s.hasSession_iff n).mp hopen⟩
  · have hnew : n ∉ s.pending.map (·.session) := by
      rw [List.mem_map, ← State.busy_iff, hfree]
      exact Bool.false_ne_true
    rw [State.issue_pending, List.map_append, List.map_singleton, ← List.concat_eq_append]
    exact List.Nodup.concat hnew h.pending_once

theorem State.Inv.complete {s : State} (h : s.Inv) (n : Nat) : (s.complete n).Inv :=
  ⟨h.outcome_range, h.returns_ok, fun x hx => h.pending_reader x (List.mem_of_mem_filter hx),
    h.pending_once.sublist (List.filter_sublist.map _)⟩

/-! ## Each interaction and each step keep it -/

theorem interact_keeps_inv {e : HostEvent} {s t : State} (h : s.Inv) (hi : interact e s = .next t) :
    t.Inv := by
  obtain ⟨c, o, ho, -, -, -, rfl⟩ | ⟨n, r, o, -, -, ho, -, rfl⟩ | ⟨-, rfl⟩ | ⟨-, rfl⟩ |
    ⟨n, -, hopen, hfree, rfl⟩ := interact_cases hi
  · exact (h.drive ho).handBack ho
  · exact ((h.complete n).drive ho).handBack ho
  · exact h.openSession
  · exact h.failOpen
  · exact h.issue hopen hfree

/-! ## The obligations -/

/-- Settles O47: an idle step only counts, and any other takes one interaction out of the inbox. -/
theorem stepKeepsTheInvariant : Obligations.StepKeepsTheInvariant := by
  intro s t h hstep
  obtain ⟨-, hidle⟩ | ⟨e, rest, -, hinteract⟩ := step_cases s
  · obtain rfl : s.tick = t := by simpa [hidle] using hstep
    exact h.tick
  · exact interact_keeps_inv (h.take rest) (hinteract.symm.trans hstep)

/-- Settles O46: nothing stands, is in flight or has been handed back, so each clause of the
invariant speaks of no value. -/
theorem resetMeetsTheInvariant : Obligations.ResetMeetsTheInvariant :=
  ⟨⟨by simp [State.reset], by simp [State.reset], by simp [State.reset], by simp [State.reset]⟩,
    rfl, rfl, rfl, rfl⟩

end Sys2Proof.Machine
end

