-- ==== Sys2Proof/Proofs/OpcodeRows.lean ====
section
/-! PROOF. The rows of the opcode map (`30_encoding.md` R70, R71): a row selects exactly the words
whose decoded operation is its own. -/

namespace Sys2Proof

/-! ## Rows and operations -/

/-- Every instruction's word is selected by the row of its operation. -/
theorem selects_encode (i : Instr) : (opcodeRow i.operation).selects (encode i) = true := by
  cases i with
  | transportError lv data => exact Laws.RowSelects.transportError lv data
  | malformedFrame data => exact Laws.RowSelects.malformedFrame data
  | openCircuit body scv scg => exact Laws.RowSelects.openCircuit body scv scg
  | shortToGround body scv => exact Laws.RowSelects.shortToGround body scv
  | shortToSupply body => exact Laws.RowSelects.shortToSupply body
  | reading body => exact Laws.RowSelects.reading body

/-- Any two rows differ in a bit that both their masks read. -/
theorem eq_of_patterns_agree {op op' : Operation}
    (h : (opcodeRow op).pattern &&& (opcodeRow op').mask =
      (opcodeRow op').pattern &&& (opcodeRow op).mask) : op = op' := by
  revert h
  cases op <;> cases op' <;> decide

/-- The rows exclude each other. -/
theorem eq_of_selects {op op' : Operation} {w : ReqWord} (h : (opcodeRow op).selects w = true)
    (h' : (opcodeRow op').selects w = true) : op = op' := by
  rw [OpcodeRow.selects, beq_iff_eq] at h h'
  apply eq_of_patterns_agree
  rw [← h, ← h', BitVec.and_assoc, BitVec.and_assoc, BitVec.and_comm (opcodeRow op).mask]

/-- A row selects a word exactly when the word decodes to the row's operation. -/
theorem selects_iff (op : Operation) (w : ReqWord) :
    (opcodeRow op).selects w = true ↔ (decodeReq w).operation = op := by
  have hself : (opcodeRow (decodeReq w).operation).selects w = true := by
    have h := selects_encode (decodeReq w)
    rwa [encodeInvertsDecode w] at h
  exact ⟨fun h => eq_of_selects hself h, fun h => h ▸ hself⟩

/-- The words of a row, with its mask and pattern written out. -/
theorem and_mask_eq_pattern_iff (op : Operation) (w : ReqWord) :
    w &&& (opcodeRow op).mask = (opcodeRow op).pattern ↔ (decodeReq w).operation = op := by
  rw [← selects_iff, OpcodeRow.selects, beq_iff_eq]

/-! ## The instructions of an operation -/

theorem operation_eq_transportError_iff (i : Instr) :
    i.operation = .transportError ↔ ∃ lv data, i = .transportError lv data := by
  cases i <;> simp [Instr.operation]

theorem operation_eq_malformedFrame_iff (i : Instr) :
    i.operation = .malformedFrame ↔ ∃ data, i = .malformedFrame data := by
  cases i <;> simp [Instr.operation]

theorem operation_eq_openCircuit_iff (i : Instr) :
    i.operation = .openCircuit ↔ ∃ body scv scg, i = .openCircuit body scv scg := by
  cases i <;> simp [Instr.operation]

theorem operation_eq_shortToGround_iff (i : Instr) :
    i.operation = .shortToGround ↔ ∃ body scv, i = .shortToGround body scv := by
  cases i <;> simp [Instr.operation]

theorem operation_eq_shortToSupply_iff (i : Instr) :
    i.operation = .shortToSupply ↔ ∃ body, i = .shortToSupply body := by
  cases i <;> simp [Instr.operation]

theorem operation_eq_reading_iff (i : Instr) :
    i.operation = .reading ↔ ∃ body, i = .reading body := by
  cases i <;> simp [Instr.operation]

/-! ## The obligation -/

/-- Settles O4: each row of the map is the row of an operation, and only the decoded operation's
selects the word. -/
theorem exactlyOneOpcodeRowSelects : Obligations.ExactlyOneOpcodeRowSelects := by
  intro w
  have hrow : ∀ op, (opcodeRow op).selects w = decide ((decodeReq w).operation = op) :=
    fun op => Bool.eq_iff_iff.mpr ((selects_iff op w).trans decide_eq_true_iff.symm)
  simp only [opcodeMap, List.filter_cons, List.filter_nil, hrow]
  cases (decodeReq w).operation <;> rfl

end Sys2Proof
end

