-- ==== Sys2Proof/Proofs/Requests.lean ====
section
/-! PROOF. The request in its forms (`20_memory.md` R41, `30_encoding.md` R61, R64, R65): the bytes
of a frame, the words of requests, and the request ports. -/

namespace Sys2Proof

/-! ## Bytes of a frame (R41, R61) -/

/-- The bytes of a frame, read back. -/
theorem extract_frameOfBytes (b0 b1 b2 b3 : Byte) :
    (frameOfBytes b0 b1 b2 b3).extractLsb' 24 8 = b0 ∧
    (frameOfBytes b0 b1 b2 b3).extractLsb' 16 8 = b1 ∧
    (frameOfBytes b0 b1 b2 b3).extractLsb' 8 8 = b2 ∧
    (frameOfBytes b0 b1 b2 b3).extractLsb' 0 8 = b3 := by
  refine ⟨?_, ?_, ?_, ?_⟩ <;>
  · apply BitVec.eq_of_getLsbD_eq
    intro k hk
    rw [BitVec.getLsbD_extractLsb', getLsbD_frameOfBytes]
    interval_cases k <;> rfl

/-- Settles O6: the word's frame is the bytes' concatenation, and each byte is read back from it. -/
theorem frameIsBigEndian : Obligations.FrameIsBigEndian := fun b0 b1 b2 b3 =>
  ⟨reqFrame_packReq false true (frameOfBytes b0 b1 b2 b3), extract_frameOfBytes b0 b1 b2 b3⟩

/-- Settles O5, bit by bit: both sides put each bit of each field at the same place. -/
theorem frameBytesHoldTheFields : Obligations.FrameBytesHoldTheFields := by
  intro body scv scg oc
  apply BitVec.eq_of_getLsbD_eq
  intro k hk
  simp only [getLsbD_encodeFrame, getLsbD_frameOfBytes, BitVec.getLsbD_extractLsb',
    BitVec.getLsbD_cast, BitVec.getLsbD_append, BitVec.getLsbD_ofBool]
  interval_cases k <;> rfl

/-! ## The instruction of a request (R65) -/

/-- Four bytes decode as their frame. -/
theorem decodeReq_delivered_four (b0 b1 b2 b3 : Byte) :
    decodeReq (Request.delivered [b0, b1, b2, b3]).reqWord =
      decodeFrame (frameOfBytes b0 b1 b2 b3) := by
  rw [reqWord_delivered, decodeReq_packReq]
  rfl

/-- The frame of a delivery that is not four bytes is 0 (R65). -/
theorem frame_delivered_of_length_ne_four {bytes : List Byte} (h : bytes.length ≠ 4) :
    (Request.delivered bytes).frame = 0 := by
  rw [Request.frame]
  rintro b0 b1 b2 b3 ⟨rfl⟩
  exact h rfl

/-- The REQ word of a delivery that is not four bytes is all 0 (R65). -/
theorem reqWord_delivered_of_length_ne_four {bytes : List Byte} (h : bytes.length ≠ 4) :
    (Request.delivered bytes).reqWord = packReq false false 0 := by
  have hlv : (Request.delivered bytes).lv = false := beq_false_of_ne h
  rw [Request.reqWord, hlv, frame_delivered_of_length_ne_four h]
  rfl

/-- Any count of bytes but four decodes to MALFORMED_FRAME. -/
theorem decodeReq_delivered_of_length_ne_four {bytes : List Byte} (h : bytes.length ≠ 4) :
    decodeReq (Request.delivered bytes).reqWord = .malformedFrame 0 := by
  rw [reqWord_delivered_of_length_ne_four h, decodeReq_packReq]
  rfl

/-! ## The words of requests (R65) -/

/-- No bit of a frame is don't-care. -/
theorem wellFormed_decodeFrame (frame : Frame) : (decodeFrame frame).wellFormed = true := by
  rw [decodeFrame]
  split_ifs <;> rfl

/-- The REQ word of a frame's delivery. -/
theorem reqWord_requestOfFrame (frame : Frame) :
    (Machine.requestOfFrame frame).reqWord = packReq false true frame := by
  rw [Machine.requestOfFrame, reqWord_delivered, frameOfBytes_extract]

/-- The request a well-formed instruction is the word of: the failed exchange, no bytes, or the
delivery of its frame. -/
def Instr.request : Instr → Request
  | .transportError _ _ => .transportFailed
  | .malformedFrame _ => .delivered []
  | .openCircuit body scv scg => Machine.requestOfFrame (encodeFrame body scv scg true)
  | .shortToGround body scv => Machine.requestOfFrame (encodeFrame body scv true false)
  | .shortToSupply body => Machine.requestOfFrame (encodeFrame body true false false)
  | .reading body => Machine.requestOfFrame (encodeFrame body false false false)

theorem reqWord_request {i : Instr} (h : i.wellFormed = true) : i.request.reqWord = encode i := by
  cases i with
  | transportError lv data =>
    obtain ⟨hlv, hdata⟩ : lv = false ∧ data = 0 := by simpa [Instr.wellFormed] using h
    rw [hlv, hdata]
    rfl
  | malformedFrame data =>
    obtain rfl : data = 0 := by simpa [Instr.wellFormed] using h
    rfl
  | openCircuit body scv scg => exact reqWord_requestOfFrame _
  | shortToGround body scv => exact reqWord_requestOfFrame _
  | shortToSupply body => exact reqWord_requestOfFrame _
  | reading body => exact reqWord_requestOfFrame _

/-- Settles O7: a request's word decodes to a well-formed instruction in each of its three cases,
and `Instr.request` is the way back. -/
theorem canonicalWordsAreTheRequests : Obligations.CanonicalWordsAreTheRequests := by
  refine ⟨fun r => ?_, fun i h => ⟨i.request, reqWord_request h⟩⟩
  cases r with
  | transportFailed => decide
  | delivered bytes =>
    by_cases h : bytes.length = 4
    · obtain ⟨b0, b1, b2, b3, rfl⟩ := List.length_eq_four.mp h
      rw [decodeReq_delivered_four]
      exact wellFormed_decodeFrame _
    · rw [decodeReq_delivered_of_length_ne_four h]
      rfl

/-! ## The request ports (R64) -/

/-- On at least three lines a saturated count reads as 4 only where it is 4. -/
theorem saturateCount_eq_four_iff {lenW : Nat} (hw : 3 ≤ lenW) (n : Nat) :
    saturateCount lenW n = 4 ↔ n = 4 := by
  have hlines : 2 ^ 3 ≤ 2 ^ lenW := Nat.pow_le_pow_right Nat.two_pos hw
  rw [saturateCount]
  omega

theorem saturateCount_lt (lenW n : Nat) : saturateCount lenW n < 2 ^ lenW := by
  have hpos := Nat.two_pow_pos lenW
  rw [saturateCount]
  omega

/-- With `req_te` set the count and the data are don't-care. -/
theorem RequestPorts.reqWord_of_te (len : Nat) (data : Frame) :
    (RequestPorts.mk true len data).reqWord = packReq true false 0 := rfl

/-- With a count other than 4 the data are don't-care. -/
theorem RequestPorts.reqWord_of_len_ne_four {len : Nat} (h : len ≠ 4) (data : Frame) :
    (RequestPorts.mk false len data).reqWord = packReq false false 0 := by
  have hlv : (RequestPorts.mk false len data).lv = false := beq_false_of_ne h
  rw [RequestPorts.reqWord, hlv]
  rfl

/-- With a count of 4 the data are the frame. -/
theorem RequestPorts.reqWord_of_len_four (data : Frame) :
    (RequestPorts.mk false 4 data).reqWord = packReq false true data := rfl

/-- Settles O8: a failed exchange ignores the count, four bytes show their frame, and any other
count saturates to a count that is not 4. -/
theorem requestPortsGiveTheReqWord : Obligations.RequestPortsGiveTheReqWord := by
  intro lenW anyLen anyData r hw hany
  cases r with
  | transportFailed => exact ⟨decide_eq_true hany, rfl⟩
  | delivered bytes =>
    refine ⟨decide_eq_true (saturateCount_lt lenW bytes.length), ?_⟩
    by_cases h : bytes.length = 4
    · obtain ⟨b0, b1, b2, b3, rfl⟩ := List.length_eq_four.mp h
      have hcount : saturateCount lenW 4 = 4 := (saturateCount_eq_four_iff hw 4).mpr rfl
      have hports : (Request.delivered [b0, b1, b2, b3]).ports lenW anyLen anyData =
          ⟨false, saturateCount lenW 4, frameOfBytes b0 b1 b2 b3⟩ := rfl
      rw [hports, hcount, RequestPorts.reqWord_of_len_four, reqWord_delivered]
    · rw [Request.ports, reqWord_delivered_of_length_ne_four h,
        RequestPorts.reqWord_of_len_ne_four (mt (saturateCount_eq_four_iff hw _).mp h)]

/-- Settles O9: the don't-care ports do not reach the REQ word. -/
theorem dontCarePortsAreIgnored : Obligations.DontCarePortsAreIgnored := by
  refine ⟨fun len data s => ?_, fun len data s h => ?_⟩
  · rw [RequestPorts.reqWord_of_te, decodeReq_packReq]
    rfl
  · rw [RequestPorts.reqWord_of_len_ne_four h, decodeReq_packReq]
    rfl

end Sys2Proof
end

