-- ==== Sys2Proof/Proofs/Operations.lean ====
section
/-! PROOF. The six operations (`40_fault_priority.md` section 2, `41_temperature_extract.md` R120):
the words of each, what it drives, and what the result ports then show. -/

namespace Sys2Proof.Machine

/-! ## Which operation a delivered frame is (R107) -/

/-- The operation of four bytes, by the fault bits of byte 3. -/
theorem operation_delivered_four (b0 b1 b2 b3 : Byte) :
    (decodeReq (Request.delivered [b0, b1, b2, b3]).reqWord).operation =
      if byteOc b3 then .openCircuit
      else if byteScg b3 then .shortToGround
      else if byteScv b3 then .shortToSupply
      else .reading := by
  rw [decodeReq_delivered_four, decodeFrame, frameOc_frameOfBytes, frameScg_frameOfBytes,
    frameScv_frameOfBytes]
  split_ifs <;> rfl

theorem openCircuit_delivered_iff (b0 b1 b2 b3 : Byte) :
    (decodeReq (Request.delivered [b0, b1, b2, b3]).reqWord).operation = .openCircuit ↔
      byteOc b3 = true := by
  rw [operation_delivered_four]
  split_ifs <;> simp_all

theorem shortToGround_delivered_iff (b0 b1 b2 b3 : Byte) :
    (decodeReq (Request.delivered [b0, b1, b2, b3]).reqWord).operation = .shortToGround ↔
      byteOc b3 = false ∧ byteScg b3 = true := by
  rw [operation_delivered_four]
  split_ifs <;> simp_all

theorem shortToSupply_delivered_iff (b0 b1 b2 b3 : Byte) :
    (decodeReq (Request.delivered [b0, b1, b2, b3]).reqWord).operation = .shortToSupply ↔
      byteOc b3 = false ∧ byteScg b3 = false ∧ byteScv b3 = true := by
  rw [operation_delivered_four]
  split_ifs <;> simp_all

theorem reading_delivered_iff (b0 b1 b2 b3 : Byte) :
    (decodeReq (Request.delivered [b0, b1, b2, b3]).reqWord).operation = .reading ↔
      byteOc b3 = false ∧ byteScg b3 = false ∧ byteScv b3 = false := by
  rw [operation_delivered_four]
  split_ifs <;> simp_all

/-! ## What the operations drive and the ports show (R66, R67) -/

theorem exec_transportError (lv : Bool) (data : Frame) (s : State) :
    exec (.transportError lv data) s = .next (s.drive (.fault .transportError)) := rfl

theorem exec_malformedFrame (data : Frame) (s : State) :
    exec (.malformedFrame data) s = .next (s.drive (.fault .malformedFrame)) := rfl

theorem tcCount_eq_toInt (t : BitVec 14) : tcCount t = t.toInt := sext_eq_toInt t

theorem cjCount_eq_toInt (c : BitVec 12) : cjCount c = c.toInt := sext_eq_toInt c

/-- A reading's ports hold the bits of its fields (R77). -/
theorem outcomePorts_reading_fields (t : BitVec 14) (c : BitVec 12) :
    outcomePorts (.reading t.toInt c.toInt) = ⟨0, t, c⟩ := by
  rw [outcomePorts, BitVec.ofInt_toInt, BitVec.ofInt_toInt]

/-- No fault has the reading's code or one of the two unused codes. -/
theorem statusCode_ne (k : FaultKind) :
    statusCode k ≠ 0 ∧ statusCode k ≠ 6 ∧ statusCode k ≠ 7 := by
  cases k <;> decide

/-! ## The obligations -/

/-- Settles O11: the row selects by operation, and the don't-care bits do not reach the outcome. -/
theorem transportErrorOperation : Obligations.TransportErrorOperation :=
  ⟨fun w => (and_mask_eq_pattern_iff .transportError w).trans (operation_eq_transportError_iff _),
    decodeReq_reqWord .transportFailed,
    fun lv data s => ⟨_, exec_transportError lv data s, rfl, rfl⟩⟩

/-- Settles O12: the row selects by operation, and a count other than four has a word of zeros. -/
theorem malformedFrameOperation : Obligations.MalformedFrameOperation :=
  ⟨fun w => (and_mask_eq_pattern_iff .malformedFrame w).trans (operation_eq_malformedFrame_iff _),
    fun _ h => decodeReq_delivered_of_length_ne_four h,
    fun data s => ⟨_, exec_malformedFrame data s, rfl, rfl⟩⟩

/-- Settles O13: OC decides alone. -/
theorem openCircuitOperation : Obligations.OpenCircuitOperation :=
  ⟨fun w => (and_mask_eq_pattern_iff .openCircuit w).trans (operation_eq_openCircuit_iff _),
    fun b0 b1 b2 b3 =>
      (openCircuit_delivered_iff b0 b1 b2 b3).symm.trans (operation_eq_openCircuit_iff _),
    fun body scv scg s => ⟨_, exec_openCircuit body scv scg s, rfl, rfl⟩⟩

/-- Settles O14: SCG decides where OC is clear. -/
theorem shortToGroundOperation : Obligations.ShortToGroundOperation :=
  ⟨fun w => (and_mask_eq_pattern_iff .shortToGround w).trans (operation_eq_shortToGround_iff _),
    fun b0 b1 b2 b3 =>
      (shortToGround_delivered_iff b0 b1 b2 b3).symm.trans (operation_eq_shortToGround_iff _),
    fun body scv s => ⟨_, exec_shortToGround body scv s, rfl, rfl⟩⟩

/-- Settles O15: SCV decides where OC and SCG are clear. -/
theorem shortToSupplyOperation : Obligations.ShortToSupplyOperation :=
  ⟨fun w => (and_mask_eq_pattern_iff .shortToSupply w).trans (operation_eq_shortToSupply_iff _),
    fun b0 b1 b2 b3 =>
      (shortToSupply_delivered_iff b0 b1 b2 b3).symm.trans (operation_eq_shortToSupply_iff _),
    fun body s => ⟨_, exec_shortToSupply body s, rfl, rfl⟩⟩

/-- Settles O16: sign extension is the two's-complement value, whose bits are the field's own. -/
theorem readingOperation : Obligations.ReadingOperation := by
  refine ⟨fun w => (and_mask_eq_pattern_iff .reading w).trans (operation_eq_reading_iff _),
    fun b0 b1 b2 b3 =>
      (reading_delivered_iff b0 b1 b2 b3).symm.trans (operation_eq_reading_iff _),
    fun body s => ⟨_, exec_reading body s, ?_, ?_⟩⟩
  · rw [tcCount_eq_toInt, cjCount_eq_toInt]
    rfl
  · rw [tcCount_eq_toInt, cjCount_eq_toInt]
    exact outcomePorts_reading_fields body.t body.c

/-- Settles O24: an instruction drives an outcome, and the ports show a reading with code 0 or a
fault with its own code and no temperature. -/
theorem resultPortsShowOneOutcome : Obligations.ResultPortsShowOneOutcome := by
  intro i s t h
  obtain ⟨o, -, hexec⟩ := exec_drives i
  obtain rfl : s.drive o = t := by simpa [hexec] using h
  rw [State.drive_resultPorts, State.drive_outcome]
  cases o with
  | reading tc cj =>
    exact ⟨by simp [outcomePorts], by simp [outcomePorts], fun hne => absurd rfl hne,
      iff_of_true rfl ⟨tc, cj, rfl⟩⟩
  | fault k =>
    obtain ⟨hzero, hsix, hseven⟩ := statusCode_ne k
    exact ⟨hsix, hseven, fun _ => ⟨rfl, rfl⟩, iff_of_false hzero (by simp)⟩

end Sys2Proof.Machine
end

