-- ==== Sys2Proof/Proofs/Temperatures.lean ====
section
/-! PROOF. Temperatures end to end (`41_temperature_extract.md` R121, R123, R127, R128, R130): the
shifted views are the frame's fields, the operation of a request computes R100's algorithm, and the
range, the round trip and the independence of the two counts. -/

namespace Sys2Proof.Machine

/-! ## The 16-bit views (R42, R68) -/

theorem fieldT_be16 (b0 b1 b2 b3 : Byte) :
    fieldT (be16 b0 b1) = frameT (frameOfBytes b0 b1 b2 b3) := by
  apply BitVec.eq_of_getLsbD_eq
  intro k hk
  simp only [fieldT, be16, frameT, BitVec.getLsbD_setWidth, BitVec.getLsbD_ushiftRight,
    BitVec.getLsbD_append, BitVec.getLsbD_extractLsb', getLsbD_frameOfBytes]
  interval_cases k <;> rfl

theorem fieldC_be16 (b0 b1 b2 b3 : Byte) :
    fieldC (be16 b2 b3) = frameC (frameOfBytes b0 b1 b2 b3) := by
  apply BitVec.eq_of_getLsbD_eq
  intro k hk
  simp only [fieldC, be16, frameC, BitVec.getLsbD_setWidth, BitVec.getLsbD_ushiftRight,
    BitVec.getLsbD_append, BitVec.getLsbD_extractLsb', getLsbD_frameOfBytes]
  interval_cases k <;> rfl

/-- A frame decoded as a reading keeps its own fields. -/
theorem body_of_decodeFrame_reading {frame : Frame} {body : FrameBody}
    (h : decodeFrame frame = .reading body) : body = frameBody frame := by
  rw [decodeFrame] at h
  split_ifs at h
  injection h with hbody
  exact hbody.symm

/-- Settles O27: each shifted view is a field of the frame, and a reading is decoded with the
frame's own fields. -/
theorem shiftedViewsAreTheFields : Obligations.ShiftedViewsAreTheFields := by
  intro b0 b1 b2 b3
  have ht := fieldT_be16 b0 b1 b2 b3
  have hc := fieldC_be16 b0 b1 b2 b3
  refine ⟨ht, hc, fun body h => ?_⟩
  rw [decodeReq_delivered_four] at h
  obtain rfl := body_of_decodeFrame_reading h
  exact ⟨ht.symm, hc.symm⟩

/-! ## The algorithm over the bytes (R100) -/

/-- The algorithm on four bytes gives the outcome of their frame. -/
theorem decodeBytes_eq_frameOutcome (b0 b1 b2 b3 : Byte) :
    decodeBytes b0 b1 b2 b3 = frameOutcome (frameOfBytes b0 b1 b2 b3) := by
  rw [decodeBytes, frameOutcome, frameOc_frameOfBytes, frameScg_frameOfBytes,
    frameScv_frameOfBytes]
  cases wiringFault (byteScv b3) (byteScg b3) (byteOc b3) with
  | some k => rfl
  | none =>
    exact congrArg₂ (fun t c => DecodeOutcome.reading (tcCount t) (cjCount c))
      (fieldT_be16 b0 b1 b2 b3) (fieldC_be16 b0 b1 b2 b3)

theorem decodeTransaction_of_length_ne_four {bytes : List Byte} (h : bytes.length ≠ 4) :
    decodeTransaction (.delivered bytes) = .fault .malformedFrame := by
  rw [decodeTransaction]
  rintro b0 b1 b2 b3 ⟨rfl⟩
  exact h rfl

/-- A request's operation drives the outcome the algorithm computes. -/
theorem exec_reqWord (r : Request) (s : State) :
    exec (decodeReq r.reqWord) s = .next (s.drive (decodeTransaction r)) := by
  cases r with
  | transportFailed =>
    rw [decodeReq_reqWord]
    rfl
  | delivered bytes =>
    by_cases h : bytes.length = 4
    · obtain ⟨b0, b1, b2, b3, rfl⟩ := List.length_eq_four.mp h
      rw [exec_delivered_four, decodeTransaction, decodeBytes_eq_frameOutcome]
    · rw [exec_delivered_of_length_ne_four h, decodeTransaction_of_length_ne_four h]

/-- Settles O32: a driven outcome is all that changes. -/
theorem opcodeMapComputesTheAlgorithm : Obligations.OpcodeMapComputesTheAlgorithm := exec_reqWord

/-! ## The representable temperatures (R127) -/

theorem thermocoupleTemp_bounds {tc : Int} (hlo : -8192 ≤ tc) (hhi : tc ≤ 8191) :
    -2048 ≤ thermocoupleTemp tc ∧ thermocoupleTemp tc ≤ 8191 / 4 := by
  have hlo' : (-8192 : Rat) ≤ tc := by exact_mod_cast hlo
  have hhi' : (tc : Rat) ≤ 8191 := by exact_mod_cast hhi
  rw [thermocoupleTemp]
  constructor <;> linarith

theorem internalTemp_bounds {cj : Int} (hlo : -2048 ≤ cj) (hhi : cj ≤ 2047) :
    -128 ≤ internalTemp cj ∧ internalTemp cj ≤ 2047 / 16 := by
  have hlo' : (-2048 : Rat) ≤ cj := by exact_mod_cast hlo
  have hhi' : (cj : Rat) ≤ 2047 := by exact_mod_cast hhi
  rw [internalTemp]
  constructor <;> linarith

theorem celsius_max : celsius (.reading 8191 2047) = some (8191 / 4, 2047 / 16) := by
  norm_num [celsius, thermocoupleTemp, internalTemp]

theorem celsius_min : celsius (.reading (-8192) (-2048)) = some (-2048, -128) := by
  norm_num [celsius, thermocoupleTemp, internalTemp]

/-- Settles O29: the temperatures of a reading are its counts scaled, and `7F,FC,7F,F0` and
`80,00,80,00` hold both maxima and both minima. -/
theorem temperaturesWithinTheRepresentableRanges :
    Obligations.TemperaturesWithinTheRepresentableRanges := by
  refine ⟨fun body s => ?_, fun s => ?_⟩
  · obtain ⟨htc_ge, htc_le⟩ := tcCount_bounds body.t
    obtain ⟨hcj_ge, hcj_le⟩ := cjCount_bounds body.c
    obtain ⟨hx_ge, hx_le⟩ := thermocoupleTemp_bounds htc_ge htc_le
    obtain ⟨hy_ge, hy_le⟩ := internalTemp_bounds hcj_ge hcj_le
    exact ⟨_, _, _, _, exec_reading body s, rfl, rfl, hx_ge, hx_le, hy_ge, hy_le⟩
  · have hmax : decodeTransaction (.delivered [0x7F, 0xFC, 0x7F, 0xF0]) = .reading 8191 2047 := by
      decide
    have hmin : decodeTransaction (.delivered [0x80, 0x00, 0x80, 0x00]) =
        .reading (-8192) (-2048) := by
      decide
    exact ⟨_, _, _, _, exec_reqWord _ s, rfl, hmax ▸ celsius_max, exec_reqWord _ s, rfl,
      hmin ▸ celsius_min⟩

/-! ## The round trip of a count (R128) -/

/-- Sign extension undoes reduction modulo `2^N` on the range of `N` bits (R12). -/
theorem sext_ofInt {N : Nat} {v : Int} (hN : 0 < N) (hlo : -(2 ^ (N - 1) : Int) ≤ v)
    (hhi : v ≤ 2 ^ (N - 1) - 1) : sext (BitVec.ofInt N v) = v := by
  rw [sext_eq_toInt]
  exact BitVec.toInt_ofInt_eq_self hN hlo (Int.lt_of_le_sub_one hhi)

/-- A frame encoded with clear fault bits ends in the reading of the fields it was given. -/
theorem frameOutcome_encodeFrame_clear (body : FrameBody) :
    frameOutcome (encodeFrame body false false false) =
      .reading (tcCount body.t) (cjCount body.c) := by
  rw [frameOutcome_of_clear (frameOc_encodeFrame ..) (frameScg_encodeFrame ..)
    (frameScv_encodeFrame ..), frameT_encodeFrame, frameC_encodeFrame]

/-- Settles O30: encoding loses nothing of a field, and sign extension undoes the reduction of the
count that was put into it. -/
theorem countsRoundTrip : Obligations.CountsRoundTrip := by
  refine ⟨fun tc cj rsv17 f rsv3 s htc_ge htc_le hcj_ge hcj_le => ?_, fun N v => sext_ofInt⟩
  have htc : tcCount (BitVec.ofInt 14 tc) = tc := sext_ofInt (by decide) htc_ge htc_le
  have hcj : cjCount (BitVec.ofInt 12 cj) = cj := sext_ofInt (by decide) hcj_ge hcj_le
  rw [exec_requestOfFrame, frameOutcome_encodeFrame_clear, htc, hcj]
  rfl

/-! ## The two lanes (R130) -/

/-- The low three bits of a frame are its fault bits. -/
theorem frameOutcome_of_low_bits_clear {frame : Frame} (h : frame.extractLsb' 0 3 = 0) :
    frameOutcome frame = .reading (tcCount (frameT frame)) (cjCount (frameC frame)) := by
  have hclear : ∀ k < 3, frame.getLsbD k = false := by
    intro k hk
    have hbit := congrArg (fun v => v.getLsbD k) h
    simpa [hk] using hbit
  exact frameOutcome_of_clear (hclear 0 (by decide)) (hclear 1 (by decide)) (hclear 2 (by decide))

/-- Settles O31: each count is the sign extension of its own field, and a field is read from its own
bits. -/
theorem temperatureLanesAreIndependent : Obligations.TemperatureLanesAreIndependent := by
  intro frame frame' s hclear hclear'
  rw [exec_requestOfFrame, exec_requestOfFrame, frameOutcome_of_low_bits_clear hclear,
    frameOutcome_of_low_bits_clear hclear']
  refine ⟨_, _, _, _, rfl, rfl, fun hagree => ?_, fun hagree => ?_⟩
  · have ht : frameT frame = frameT frame' := extractLsb'_congr fun k hlo _ => hagree k hlo
    rw [ht]
  · have hc : frameC frame = frameC frame' :=
      extractLsb'_congr fun k hlo hhi => hagree k hlo (by omega)
    rw [hc]

end Sys2Proof.Machine
end

