-- ==== Sys2Proof/Proofs/TransactionSteps.lean ====
section
/-! PROOF. The steps that run a transaction (`20_memory.md` R46, `40_fault_priority.md` R108,
`42_host_interface.md` R145): in whatever form a request is presented, the step runs its instruction
and hands back the one outcome that instruction drives. -/

namespace Sys2Proof.Machine

/-! ## The instruction an interaction presents -/

theorem decodeWord_eq_ok_of_toOption {bits : Nat} {i : Instr}
    (h : (decodeWord bits).toOption = some i) : decodeWord bits = .ok i := by
  cases hd : decodeWord bits with
  | ok j =>
    rw [hd] at h
    exact congrArg Except.ok (Option.some.inj h)
  | error r =>
    rw [hd] at h
    cases h

theorem decodeWord_tableBits_of_decodeTableWord {nbits w : Nat} {i : Instr}
    (h : decodeTableWord nbits w = some i) : decodeWord (tableBits nbits w) = .ok i := by
  rw [decodeTableWord] at h
  cases hd : decodeWord (tableBits nbits w) with
  | ok j =>
    rw [hd] at h
    exact congrArg Except.ok (Option.some.inj h)
  | error r =>
    rw [hd] at h
    cases h

theorem interact_word {bits : Nat} {i : Instr} (h : decodeWord bits = .ok i) (s : State) :
    interact (.word bits) s = transact .ports i s := by
  simp only [interact, h]

theorem interact_answer {n : Nat} {s : State} (h : s.busy n = true) (r : Request) :
    interact (.answer n r) s =
      transact (.session n) (decodeReq r.reqWord) (s.complete n) :=
  if_pos h

/-- A dutiful interaction that starts a transaction presents an instruction. -/
theorem exists_instr_of_transactionFor {e : HostEvent} {c : Caller} {s : State}
    (hc : e.transactionFor = some c) (hd : e.dutiful s = true) : ∃ i, e.instr = some i := by
  cases e with
  | word bits =>
    have hbits : bits < 2 ^ 34 := of_decide_eq_true hd
    exact ⟨_, by rw [HostEvent.instr, decodeWord, if_pos hbits]; rfl⟩
  | ports p => exact ⟨_, rfl⟩
  | request r => exact ⟨_, rfl⟩
  | openOk => cases hc
  | openFailed => cases hc
  | call n => cases hc
  | answer n r => exact ⟨_, rfl⟩

/-- An interaction that presents an instruction starts a transaction. -/
theorem exists_transactionFor_of_instr {e : HostEvent} {i : Instr} (hi : e.instr = some i) :
    ∃ c, e.transactionFor = some c := by
  cases e with
  | word bits => exact ⟨_, rfl⟩
  | ports p => exact ⟨_, rfl⟩
  | request r => exact ⟨_, rfl⟩
  | openOk => cases hi
  | openFailed => cases hi
  | call n => cases hi
  | answer n r => exact ⟨_, rfl⟩

/-! ## What a transaction's step does -/

/-- The exchange of the caller a transaction is for is over; a request at the block's input ends no
exchange. -/
def State.release : Caller → State → State
  | .ports, s => s
  | .session n, s => s.complete n

/-- A dutiful interaction runs its instruction for its caller, in any of the four forms. -/
theorem interact_transaction {e : HostEvent} {c : Caller} {i : Instr} {s : State}
    (hc : e.transactionFor = some c) (hi : e.instr = some i) (hd : e.dutiful s = true) :
    interact e s = transact c i (s.release c) := by
  cases e with
  | word bits =>
    cases hc
    exact interact_word (decodeWord_eq_ok_of_toOption hi) s
  | ports p =>
    cases hc
    cases hi
    rfl
  | request r =>
    cases hc
    cases hi
    rfl
  | openOk => cases hc
  | openFailed => cases hc
  | call n => cases hc
  | answer n r =>
    cases hc
    cases hi
    exact interact_answer hd r

/-- Taking an interaction out of the inbox changes nobody's duties. -/
theorem dutiful_take (e : HostEvent) (rest : List HostEvent) (s : State) :
    e.dutiful (s.take rest) = e.dutiful s := by
  cases e <;> rfl

/-- A step that takes a dutiful transaction ends the caller's exchange, drives the outcome of the
instruction, whatever the state, and hands it back. -/
theorem step_transaction {s : State} {e : HostEvent} {rest : List HostEvent} {c : Caller}
    {i : Instr} (hin : s.inbox = e :: rest) (hc : e.transactionFor = some c)
    (hi : e.instr = some i) (hd : e.dutiful s = true) :
    ∃ o, (∀ u, exec i u = .next (u.drive o)) ∧
      step s = .next ((((s.take rest).release c).drive o).handBack (.decoded c o)) := by
  obtain ⟨o, -, hexec, htransact⟩ := transact_drives c i ((s.take rest).release c)
  rw [← dutiful_take e rest] at hd
  exact ⟨o, hexec, by rw [step_of_inbox hin, interact_transaction hc hi hd, htransact]⟩

/-- An instruction drives one outcome only. -/
theorem drive_unique {i : Instr} {o o' : DecodeOutcome} (h : ∀ u, exec i u = .next (u.drive o))
    (h' : ∀ u, exec i u = .next (u.drive o')) : o = o' := by
  have heq : State.drive o State.reset = State.drive o' State.reset :=
    Host.Outcome.next.inj ((h State.reset).symm.trans (h' State.reset))
  exact Option.some.inj (congrArg State.outcome heq)

/-- The transport's answer to a call: the session's exchange is over, and its caller is handed what
the algorithm computes from the answer. -/
def State.answered (n : Nat) (r : Request) (s : State) : State :=
  ((s.complete n).drive (decodeTransaction r)).handBack
    (.decoded (.session n) (decodeTransaction r))

theorem step_answer {s : State} {n : Nat} {r : Request} {rest : List HostEvent}
    (hin : s.inbox = .answer n r :: rest) (hbusy : s.busy n = true) :
    step s = .next ((s.take rest).answered n r) := by
  have hbusy' : (s.take rest).busy n = true := hbusy
  rw [step_of_inbox hin, interact_answer hbusy', transact, exec_reqWord]
  rfl

/-! ## The obligations -/

/-- An outcome is a reading, or a fault of exactly one kind, and not both. -/
theorem reading_xor_one_fault (o : DecodeOutcome) :
    ((∃ tc cj, o = .reading tc cj) ∨ ∃! k, o = .fault k) ∧
      ¬ ((∃ tc cj, o = .reading tc cj) ∧ ∃ k, o = .fault k) := by
  cases o with
  | reading tc cj => exact ⟨.inl ⟨tc, cj, rfl⟩, by simp⟩
  | fault k => exact ⟨.inr ⟨k, rfl, fun k' h => (DecodeOutcome.fault.inj h).symm⟩, by simp⟩

/-- Settles O33: the step hands back the outcome its instruction drives, which the end of the
returns determines and which is one of the two kinds. -/
theorem exactlyOneOutcome : Obligations.ExactlyOneOutcome := by
  intro s e c rest hin hc hd
  obtain ⟨i, hi⟩ := exists_instr_of_transactionFor hc hd
  obtain ⟨o, -, hstep⟩ := step_transaction hin hc hi hd
  have hreturns : ((s.take rest).release c).returns = s.returns := by cases c <;> rfl
  obtain ⟨hone, hnotboth⟩ := reading_xor_one_fault o
  refine ⟨_, hstep, ⟨o, ⟨rfl, ?_⟩, fun o' h => (Option.some.inj h.1).symm⟩, ?_, ?_⟩
  · simp [hreturns]
  · simpa using hone
  · simpa using hnotboth

/-- Settles O34: both steps drive the outcome of the one instruction, and what the first changes at
the boundary is written out by `step_transaction`. A failed exchange and no bytes, answered on one
session in one state, are the two answers that differ. -/
theorem equalRequestsEqualOutcomes : Obligations.EqualRequestsEqualOutcomes := by
  refine ⟨fun s s' e e' i c rest rest' hin hin' hi hi' hc hd hd' => ?_, ?_⟩
  · obtain ⟨c', hc'⟩ := exists_transactionFor_of_instr hi'
    obtain ⟨o, hexec, hstep⟩ := step_transaction hin hc hi hd
    obtain ⟨o', hexec', hstep'⟩ := step_transaction hin' hc' hi' hd'
    obtain rfl := drive_unique hexec hexec'
    refine ⟨_, _, o, hstep, hstep', rfl, rfl, ?_⟩
    cases c with
    | ports => exact ⟨rfl, rfl, rfl, fun _ => rfl, nofun⟩
    | session m => exact ⟨rfl, rfl, rfl, nofun, fun n h => Caller.session.inj h ▸ rfl⟩
  · exact ⟨{ State.reset with sessions := 1, pending := [readerExchange 0] }, .transportFailed,
      .delivered [], _, _, step_answer rfl rfl, step_answer rfl rfl, by decide⟩

/-- Settles O35: a word, a request and the ports are each run as a transaction of the ports. -/
theorem stepRunsTheDecodedInstruction : Obligations.StepRunsTheDecodedInstruction := by
  rintro s rest e i hin (⟨n, rfl, hn⟩ | ⟨r, rfl, rfl⟩ | ⟨p, rfl, rfl⟩)
  · rw [step_of_inbox hin, interact_word hn]
    rfl
  · rw [step_of_inbox hin]
    rfl
  · rw [step_of_inbox hin]
    rfl

/-- Settles O36: an answer on a busy session is a transaction of that session's caller. -/
theorem answerRunsTheDecodedInstruction : Obligations.AnswerRunsTheDecodedInstruction := by
  intro s rest n r hin hbusy
  have hbusy' : (s.take rest).busy n = true := hbusy
  rw [step_of_inbox hin, interact_answer hbusy']
  rfl

/-- Settles O37: the word stands before everything else in the inbox. -/
theorem fetchWordIsRunNext : Obligations.FetchWordIsRunNext := by
  intro s nbits w i h
  have hword := decodeWord_tableBits_of_decodeTableWord h
  obtain ⟨o, -, hexec, htransact⟩ :=
    transact_drives .ports i ((s.withFetchWord nbits w).take s.inbox)
  refine ⟨o, _, hexec s, ?_, rfl⟩
  rw [step_of_inbox rfl, interact_word hword, htransact]
  rfl

end Sys2Proof.Machine
end

