-- ==== Sys2Proof/Proofs/BoundarySteps.lean ====
section
/-! PROOF. The steps at the boundary (`42_host_interface.md` R141 to R149, `70_reset_and_hazards.md`
R183): opening, calling, being refused, and when a step goes on. -/

namespace Sys2Proof.Machine

/-! ## Opening, calling and standing idle -/

theorem step_of_inbox_nil {s : State} (h : s.inbox = []) : step s = .next s.tick := by
  rw [step, takeStep, h]

/-- A session is free when no exchange in flight is its own. -/
theorem State.busy_eq_false_iff (n : Nat) (s : State) :
    s.busy n = false ↔ ∀ x ∈ s.pending, x.session ≠ n := by
  rw [← Bool.not_eq_true, State.busy_iff]
  push Not
  rfl

theorem State.hasSession_eq_false_iff (n : Nat) (s : State) :
    s.hasSession n = false ↔ s.sessions ≤ n := by
  rw [← Bool.not_eq_true, State.hasSession_iff, Nat.not_lt]

theorem startCall_dutiful {n : Nat} {s : State} (hopen : s.hasSession n = true)
    (hfree : s.busy n = false) : startCall n s = .next (s.issue n) := by
  rw [startCall, if_pos hopen, hfree]
  rfl

theorem step_call {s : State} {n : Nat} {rest : List HostEvent} (hin : s.inbox = .call n :: rest)
    (hopen : s.hasSession n = true) (hfree : s.busy n = false) :
    step s = .next ((s.take rest).issue n) := by
  rw [step_of_inbox hin]
  exact startCall_dutiful hopen hfree

/-- Settles O38: both results of `open()` are interactions that always lead on. -/
theorem openGivesASessionOrTransportError : Obligations.OpenGivesASessionOrTransportError :=
  fun _ _ => ⟨step_of_inbox, step_of_inbox⟩

/-- Settles O39: the session exists and is free, so the call is neither of the two refused. -/
theorem callIssuesTheReadersExchange : Obligations.CallIssuesTheReadersExchange := by
  intro s rest n hin hopen hfree
  exact step_call hin ((s.hasSession_iff n).mpr hopen) ((s.busy_eq_false_iff n).mpr hfree)

/-- Settles O45: an empty inbox leaves the step nothing to take. -/
theorem idleStepOnlyCounts : Obligations.IdleStepOnlyCounts := fun _ => step_of_inbox_nil

/-! ## The four refusals -/

theorem startCall_noSession {n : Nat} {s : State} (h : s.hasSession n = false) :
    startCall n s = .refused .noSession := by
  rw [startCall, h]
  rfl

theorem startCall_overlapping {n : Nat} {s : State} (hopen : s.hasSession n = true)
    (hbusy : s.busy n = true) : startCall n s = .refused .overlappingCall := by
  rw [startCall, if_pos hopen, if_pos hbusy]

theorem finishCall_noExchange {n : Nat} {s : State} (h : s.busy n = false) (r : Request) :
    finishCall n r s = .refused .noExchangePending := by
  rw [finishCall, h]
  rfl

theorem interact_word_wide {bits : Nat} (h : 2 ^ 34 ≤ bits) (s : State) :
    interact (.word bits) s = .refused .wordWiderThanReq := by
  simp only [interact, decodeWord, if_neg (Nat.not_lt.mpr h)]

/-- Settles O40: each clause is the one refusal of its interaction. -/
theorem brokenDutiesAreRefusedByName : Obligations.BrokenDutiesAreRefusedByName := by
  intro s rest n
  refine ⟨fun hin h => ?_, fun hin hopen hbusy => ?_, fun r hin hfree => ?_, fun hin h => ?_⟩
  · rw [step_of_inbox hin]
    exact startCall_noSession ((s.hasSession_eq_false_iff n).mpr h)
  · rw [step_of_inbox hin]
    exact startCall_overlapping ((s.hasSession_iff n).mpr hopen) ((s.busy_iff n).mpr hbusy)
  · rw [step_of_inbox hin]
    exact finishCall_noExchange (s := s.take rest) ((s.busy_eq_false_iff n).mpr hfree) r
  · rw [step_of_inbox hin]
    exact interact_word_wide h _

/-! ## When a step goes on -/

/-- An interaction leads on only where the duties are kept. -/
theorem dutiful_of_interact {e : HostEvent} {s t : State} (h : interact e s = .next t) :
    e.dutiful s = true := by
  obtain ⟨c, o, -, hd, -, -, -⟩ | ⟨n, r, o, rfl, hbusy, -, -, -⟩ | ⟨rfl, -⟩ | ⟨rfl, -⟩ |
    ⟨n, rfl, hopen, hfree, -⟩ := interact_cases h
  · exact hd
  · exact hbusy
  · rfl
  · rfl
  · simp [HostEvent.dutiful, hopen, hfree]

/-- An interaction that starts no transaction leads on where the duties are kept. -/
theorem interact_of_no_transaction {e : HostEvent} {s : State} (hc : e.transactionFor = none)
    (hd : e.dutiful s = true) : ∃ t, interact e s = .next t := by
  cases e with
  | word bits => cases hc
  | ports p => cases hc
  | request r => cases hc
  | openOk => exact ⟨_, rfl⟩
  | openFailed => exact ⟨_, rfl⟩
  | call n =>
    obtain ⟨hopen, hfree⟩ : s.hasSession n = true ∧ s.busy n = false := by
      simpa [HostEvent.dutiful] using hd
    exact ⟨_, startCall_dutiful hopen hfree⟩
  | answer n r => cases hc

theorem interact_goes_on_iff (e : HostEvent) (s : State) :
    (∃ t, interact e s = .next t) ↔ e.dutiful s = true := by
  refine ⟨fun ⟨_, h⟩ => dutiful_of_interact h, fun hd => ?_⟩
  cases hc : e.transactionFor with
  | none => exact interact_of_no_transaction hc hd
  | some c =>
    obtain ⟨i, hi⟩ := exists_instr_of_transactionFor hc hd
    obtain ⟨o, -, -, htransact⟩ := transact_drives c i (s.release c)
    exact ⟨_, (interact_transaction hc hi hd).trans htransact⟩

/-- Settles O41: an idle step goes on, and any other goes on as its interaction does. -/
theorem stepGoesOnExactlyWhenDutiful : Obligations.StepGoesOnExactlyWhenDutiful := by
  intro s
  obtain ⟨hin, hstep⟩ | ⟨e, rest, hin, hstep⟩ := step_cases s
  · exact iff_of_true ⟨_, hstep⟩ (by simp [hin])
  · rw [hstep, interact_goes_on_iff, dutiful_take]
    simp [hin]

end Sys2Proof.Machine
end

