-- ==== Sys2Proof/Proofs/Calls.lean ====
section
/-! PROOF. Calls and their answers over several steps (`20_memory.md` R49, `42_host_interface.md`
R145, R147, `60_exceptions.md` R170): a blocked caller waits, calls return in order, and sessions do
not interfere. -/

namespace Sys2Proof.Machine

/-! ## Rules: who is busy, and what a caller has been handed -/

/-- Ending one session's exchange leaves the others in flight. -/
theorem State.busy_complete_of_ne {m n : Nat} (h : m ≠ n) (s : State) :
    (s.complete m).busy n = s.busy n := by
  rw [Bool.eq_iff_iff, State.busy_iff, State.busy_iff]
  refine exists_congr fun x => ?_
  rw [State.complete_pending, List.mem_filter, bne_iff_ne]
  exact ⟨fun ⟨⟨hmem, _⟩, hx⟩ => ⟨hmem, hx⟩, fun ⟨hmem, hx⟩ => ⟨⟨hmem, hx ▸ h.symm⟩, hx⟩⟩

/-- A call takes no other exchange out of flight. -/
theorem State.busy_issue {n : Nat} {s : State} (h : s.busy n = true) (m : Nat) :
    (s.issue m).busy n = true := by
  obtain ⟨x, hmem, hx⟩ := (s.busy_iff n).mp h
  exact ((s.issue m).busy_iff n).mpr ⟨x, List.mem_append_left _ hmem, hx⟩

theorem State.outcomesOf_openSession (d : Caller) (s : State) :
    s.openSession.outcomesOf d = s.outcomesOf d := by
  simp [State.outcomesOf]

theorem State.outcomesOf_failOpen (d : Caller) (s : State) :
    s.failOpen.outcomesOf d = s.outcomesOf d := by
  simp [State.outcomesOf]

/-! ## A blocked caller -/

/-- An interaction that is not a blocked session's answer leaves its caller blocked, and hands it
nothing. -/
theorem interact_keeps_blocked {e : HostEvent} {s t : State} {n : Nat} (hbusy : s.busy n = true)
    (hne : ∀ r, e ≠ .answer n r) (h : interact e s = .next t) :
    t.busy n = true ∧ t.outcomesOf (.session n) = s.outcomesOf (.session n) := by
  obtain ⟨c, o, -, -, -, rfl, rfl⟩ | ⟨m, r, o, rfl, -, -, -, rfl⟩ | ⟨-, rfl⟩ | ⟨-, rfl⟩ |
    ⟨m, -, -, -, rfl⟩ := interact_cases h
  · refine ⟨hbusy, ?_⟩
    rw [State.outcomesOf_handBack, if_neg nofun, List.append_nil]
    rfl
  · have hmn : m ≠ n := fun heq => hne r (heq ▸ rfl)
    refine ⟨(s.busy_complete_of_ne hmn).trans hbusy, ?_⟩
    rw [State.outcomesOf_handBack, if_neg fun heq => hmn (Caller.session.inj heq),
      List.append_nil]
    rfl
  · exact ⟨hbusy, State.outcomesOf_openSession _ _⟩
  · exact ⟨hbusy, State.outcomesOf_failOpen _ _⟩
  · exact ⟨State.busy_issue hbusy m, rfl⟩

/-- Settles O42: an idle step hands nobody anything, and no interaction but the session's answer
reaches the blocked caller. -/
theorem blockedCallWaitsForItsAnswer : Obligations.BlockedCallWaitsForItsAnswer := by
  refine fun s n hbusy => ⟨fun hin => ⟨_, step_of_inbox_nil hin⟩, fun t h hne => ?_⟩
  obtain ⟨-, hstep⟩ | ⟨e, rest, hin, hstep⟩ := step_cases s
  · obtain rfl : s.tick = t := by simpa [hstep] using h
    exact ⟨hbusy, rfl⟩
  · have hne' : ∀ r, e ≠ .answer n r := fun r heq => hne r rest (heq ▸ hin)
    exact interact_keeps_blocked (s := s.take rest) hbusy hne' (hstep.symm.trans h)

/-! ## Calls on one session, one after another -/

/-- Issuing a free session's exchange and ending it leaves every exchange in flight as it was. -/
theorem pending_complete_issue {n : Nat} {s : State} (hfree : s.busy n = false) :
    ((s.issue n).complete n).pending = s.pending := by
  rw [State.complete_pending, State.issue_pending, List.filter_append,
    List.filter_eq_self.mpr fun x hx => bne_iff_ne.mpr ((s.busy_eq_false_iff n).mp hfree x hx)]
  simp

/-- The state after one whole `getTemperature()`: a call and its answer. -/
def State.called (n : Nat) (r : Request) (rest : List HostEvent) (s : State) : State :=
  { s with
    inbox := rest
    ticks := s.ticks + 2
    outcome := some (decodeTransaction r)
    returns := s.returns ++ [.decoded (.session n) (decodeTransaction r)] }

/-- A call and its answer are two steps. -/
theorem run_call_answer {s : State} {n : Nat} {r : Request} {rest : List HostEvent}
    (hin : s.inbox = .call n :: .answer n r :: rest) (hopen : s.hasSession n = true)
    (hfree : s.busy n = false) (k : Nat) :
    Host.Core.run Sys2Proof.core (k + 2) s =
      Host.Core.run Sys2Proof.core k (s.called n r rest) := by
  have hbusy : ((s.take (.answer n r :: rest)).issue n).busy n = true :=
    (State.busy_iff n _).mpr ⟨readerExchange n, List.mem_append_right _ (List.mem_singleton_self _),
      rfl⟩
  rw [run_of_step (step_call hin hopen hfree), run_of_step (step_answer rfl hbusy)]
  congr 1
  have hpending := pending_complete_issue hfree
  simp only [State.answered, State.called, State.handBack, State.drive, State.complete,
    State.issue, State.take] at hpending ⊢
  rw [hpending]

/-- Settles O43, by induction on the answers: the first call and its answer are two steps to a state
in which the session is free again. -/
theorem callsReturnInOrder : Obligations.CallsReturnInOrder := by
  intro answers
  induction answers with
  | nil =>
    intro s n rest _ _ hin
    have hinbox : s.inbox = rest := hin
    subst hinbox
    simp [Host.Core.run]
  | cons r answers ih =>
    intro s n rest hopen hfree hin
    have hin' : s.inbox = .call n :: .answer n r ::
        (answers.flatMap (fun r => [.call n, .answer n r]) ++ rest) := hin
    have hrun := run_call_answer hin' ((s.hasSession_iff n).mpr hopen)
      ((s.busy_eq_false_iff n).mpr hfree) (2 * answers.length)
    have hticks : s.ticks + 2 + 2 * answers.length = s.ticks + 2 * (answers.length + 1) := by omega
    refine (hrun.trans (ih (s.called n r _) n rest hopen hfree rfl)).trans ?_
    simp [State.called, List.getLast?_cons, hticks]

/-! ## Answers on two sessions -/

/-- Two answers that stand first in the inbox are two steps. -/
theorem run_two_answers {s : State} {a b : Nat} (hab : a ≠ b) (ha : s.busy a = true)
    (hb : s.busy b = true) (ra rb : Request) (rest : List HostEvent) :
    Host.Core.run Sys2Proof.core 2 { s with inbox := .answer a ra :: .answer b rb :: rest } =
      .next ((((s.take (.answer b rb :: rest)).answered a ra).take rest).answered b rb) := by
  have hb' : ((s.take (.answer b rb :: rest)).answered a ra).busy b = true :=
    (s.busy_complete_of_ne hab).trans hb
  have hfirst : step { s with inbox := .answer a ra :: .answer b rb :: rest } =
      .next ((s.take (.answer b rb :: rest)).answered a ra) := step_answer rfl ha
  rw [run_of_step hfirst, run_of_step (step_answer rfl hb')]
  rfl

/-- An answer hands its session's caller one outcome more, and nobody else anything. -/
theorem State.outcomesOf_answered (n : Nat) (r : Request) (c : Caller) (s : State) :
    (s.answered n r).outcomesOf c =
      s.outcomesOf c ++ if .session n = c then [decodeTransaction r] else [] :=
  State.outcomesOf_handBack (.session n) c (decodeTransaction r) _

/-- What each caller has been handed after two answers. -/
theorem outcomesOf_two_answers (a b : Nat) (ra rb : Request) (l rest : List HostEvent) (c : Caller)
    (s : State) :
    ((((s.take l).answered a ra).take rest).answered b rb).outcomesOf c =
      (s.outcomesOf c ++ if .session a = c then [decodeTransaction ra] else []) ++
        if .session b = c then [decodeTransaction rb] else [] := by
  rw [State.outcomesOf_answered]
  exact congrArg (· ++ _) (State.outcomesOf_answered a ra c (s.take l))

/-- Settles O44: no caller is blocked on both sessions, so the outcomes each is handed are the same
in either order; the exchanges left in flight are those of neither session. -/
theorem sessionsDoNotInterfere : Obligations.SessionsDoNotInterfere := by
  intro s a b ra rb rest hab ha hb
  have hsession : Caller.session a ≠ .session b := fun h => hab (Caller.session.inj h)
  refine ⟨_, _, run_two_answers hab ha hb ra rb rest, run_two_answers hab.symm hb ha rb ra rest,
    fun c => ?_, ?_, ?_, ?_, rfl, rfl, rfl⟩
  · rw [outcomesOf_two_answers, outcomesOf_two_answers]
    by_cases hc : .session a = c
    · rw [if_pos hc, if_neg (hc ▸ hsession.symm), List.append_nil, List.append_nil]
    · rw [if_neg hc, List.append_nil, List.append_nil]
  · rw [outcomesOf_two_answers, if_pos rfl, if_neg hsession.symm, List.append_nil]
  · rw [outcomesOf_two_answers, if_neg hsession, if_pos rfl, List.append_nil]
  · exact List.filter_comm _ _ _

end Sys2Proof.Machine
end
